-- ==== Sys2Proof/Word.lean ====
section
/-! DEFINITION. The word types of the SHA-256 core (spec 00_scope.md R5, R7, R8). -/

namespace Sys2Proof

/-- A byte: 8 bits, `0 .. 255` (R8). -/
abbrev Byte := BitVec 8

/-- A word: 32 bits, always unsigned (R8, R120). -/
abbrev Word := BitVec 32

/-- A 64-bit control register or length (R7, decision D17). -/
abbrev Count := BitVec 64

/-- A command word `CW`, format CMD16 (R90). -/
abbrev CommandWord := BitVec 16

end Sys2Proof
end

