-- ==== Sys2Proof/Syntax.lean ====
section
/-! DEFINITION. The operations of the core: the eight commands (30_encoding.md R94) and the nine
micro-operations (R99), one constructor per row of opcode_table.json. -/

namespace Sys2Proof

/-- An operation. A command carries the 8-bit field `imm` of its word (R90, R93); which values of it are
legal is WellFormed.lean's. A micro-operation has no explicit operand (R99). -/
inductive Instr where
  /-- `NOP` (R215). -/
  | nop (imm : Byte)
  /-- `CLR` (R216). -/
  | clr (imm : Byte)
  /-- `PUSH b` (R217). -/
  | push (b : Byte)
  /-- `START` (R218). -/
  | start (imm : Byte)
  /-- `RDW i` (R219). -/
  | rdw (i : Byte)
  /-- `RDB j` (R220). -/
  | rdb (j : Byte)
  /-- `RDX j` (R221). -/
  | rdx (j : Byte)
  /-- `RDS` (R222). -/
  | rds (imm : Byte)
  /-- `PAD80` (R143). -/
  | pad80
  /-- `PADZ` (R144). -/
  | padz
  /-- `PADL` (R145). -/
  | padl
  /-- `LDIV` (R198). -/
  | ldiv
  /-- `LDW` (R162). -/
  | ldw
  /-- `EXP` (R163). -/
  | exp
  /-- `LDV` (R177). -/
  | ldv
  /-- `RND` (R178). -/
  | rnd
  /-- `FOLD` (R179). -/
  | fold
deriving DecidableEq, Repr

end Sys2Proof
end

