-- ==== Sys2Proof/WellFormed.lean ====
section
/-! DEFINITION. Which operations are well formed: the legal operand ranges of 30_encoding.md R93. -/

namespace Sys2Proof

/-- The operand lies in the legal range R93 gives its opcode. -/
def Instr.operandLegal : Instr → Bool
  | .nop imm => imm == 0#8
  | .clr imm => imm == 0#8
  | .push _ => true
  | .start imm => imm == 0#8
  | .rdw i => decide (i.toNat ≤ 7)
  | .rdb j => decide (j.toNat ≤ 31)
  | .rdx j => decide (j.toNat ≤ 63)
  | .rds imm => imm == 0#8
  | .pad80 => true
  | .padz => true
  | .padl => true
  | .ldiv => true
  | .ldw => true
  | .exp => true
  | .ldv => true
  | .rnd => true
  | .fold => true

/-- A well-formed operation: one the decoder can return (R97). -/
abbrev Instr.WellFormed (i : Instr) : Prop := i.operandLegal = true

/-- The operation is a command of the host, not a micro-operation of the core. -/
def Instr.isCommand : Instr → Bool
  | .nop _ => true
  | .clr _ => true
  | .push _ => true
  | .start _ => true
  | .rdw _ => true
  | .rdb _ => true
  | .rdx _ => true
  | .rds _ => true
  | .pad80 => false
  | .padz => false
  | .padl => false
  | .ldiv => false
  | .ldw => false
  | .exp => false
  | .ldv => false
  | .rnd => false
  | .fold => false

end Sys2Proof
end

