-- ==== Sys2Proof/Decode.lean ====
section
/-! DEFINITION. The decoder and, after it, the encoder (30_encoding.md).
A command word is 16 bits (R90); a micro-operation is selected by the 4 bits of `PHASE` (R99). Both decoders are total
and reject by name. -/

namespace Sys2Proof

/-- Why a command word is illegal: `illegal(1)` and `illegal(2)` of R97. -/
inductive IllegalCommand where
  /-- `illegal(1)`: the opcode is reserved (R96). -/
  | reservedOpcode
  /-- `illegal(2)`: a defined opcode with an operand outside its range (R98). -/
  | operandRange
deriving DecidableEq, Repr

/-- Why a value of `PHASE` selects no micro-operation. -/
inductive NoMicroOp where
  /-- `IDLE`, `DONE` and `ERROR`: the core has no step in them (R99). -/
  | noStep
  /-- The reserved codes 12 to 15 (R100). -/
  | reservedPhase
deriving DecidableEq, Repr

/-- The opcode field, bits 15:8 (R90). -/
def opField (cw : CommandWord) : Byte := cw.extractLsb' 8 8

/-- The operand field, bits 7:0 (R90, R93). -/
def immField (cw : CommandWord) : Byte := cw.extractLsb' 0 8

/-- The eight rows of the opcode map: (mask, match) of R94, in the order of the opcodes 0 to 7. -/
def commandRows : List (CommandWord × CommandWord) :=
  [ (0xFFFF#16, 0x0000#16), (0xFFFF#16, 0x0100#16), (0xFF00#16, 0x0200#16), (0xFFFF#16, 0x0300#16),
    (0xFFF8#16, 0x0400#16), (0xFFE0#16, 0x0500#16), (0xFFC0#16, 0x0600#16), (0xFFFF#16, 0x0700#16) ]

/-- A row applies to a command word when `CW and mask = match` (R94). -/
def rowApplies (row : CommandWord × CommandWord) (cw : CommandWord) : Bool :=
  cw &&& row.1 == row.2

/-- The command a defined opcode names, with its operand; a reserved opcode names none (R94, R96). -/
def commandOf (op imm : Byte) : Option Instr :=
  match op.toNat with
  | 0 => some (.nop imm)
  | 1 => some (.clr imm)
  | 2 => some (.push imm)
  | 3 => some (.start imm)
  | 4 => some (.rdw imm)
  | 5 => some (.rdb imm)
  | 6 => some (.rdx imm)
  | 7 => some (.rds imm)
  | _ => none

/-- The decoder of command words (R97): it depends on `CW` alone. -/
def decodeCommand (cw : CommandWord) : Except IllegalCommand Instr :=
  match commandOf (opField cw) (immField cw) with
  | none => .error .reservedOpcode
  | some i => if commandRows.any (rowApplies · cw) then .ok i else .error .operandRange

/-- The micro-operation a value of `PHASE` selects (R99). -/
def decodePhase (p : BitVec 4) : Except NoMicroOp Instr :=
  match p.toNat with
  | 1 => .ok .pad80
  | 2 => .ok .padz
  | 3 => .ok .padl
  | 4 => .ok .ldiv
  | 5 => .ok .ldw
  | 6 => .ok .exp
  | 7 => .ok .ldv
  | 8 => .ok .rnd
  | 9 => .ok .fold
  | 0 => .error .noStep
  | 10 => .error .noStep
  | 11 => .error .noStep
  | _ => .error .reservedPhase

/-- An encoded operation: a command word, or the selector of a micro-operation. -/
inductive Code where
  /-- Format CMD16 (R90). -/
  | cmd16 (cw : CommandWord)
  /-- Format PHASE4 (R99). -/
  | phase4 (p : BitVec 4)
deriving DecidableEq, Repr

/-- Why a code is no operation. -/
inductive Reject where
  /-- The command decoder's reason. -/
  | command (r : IllegalCommand)
  /-- The phase selector's reason. -/
  | phase (r : NoMicroOp)
deriving DecidableEq, Repr

/-- The decoder of both formats. -/
def decode : Code → Except Reject Instr
  | .cmd16 cw => (decodeCommand cw).mapError .command
  | .phase4 p => (decodePhase p).mapError .phase

/-- The instruction read from the `nbits` low bits of `w`, as the opcode table numbers them: a 16-bit row is a
command word, a row of one byte or less is a value of the 4-bit `PHASE` register (no bit above 3 may be set). -/
def decodeTableWord (nbits w : Nat) : Option Instr :=
  if nbits = 16 ∧ w < 65536 then (decodeCommand (BitVec.ofNat 16 w)).toOption
  else if nbits ≤ 8 ∧ w < 16 then (decodePhase (BitVec.ofNat 4 w)).toOption
  else none

/-- `CW = op * 256 + imm` (R90). -/
def commandWord (op imm : Byte) : CommandWord := op ++ imm

/-- The encoder, from the tables R94 and R99. -/
def encode : Instr → Code
  | .nop imm => .cmd16 (commandWord 0x00#8 imm)
  | .clr imm => .cmd16 (commandWord 0x01#8 imm)
  | .push b => .cmd16 (commandWord 0x02#8 b)
  | .start imm => .cmd16 (commandWord 0x03#8 imm)
  | .rdw i => .cmd16 (commandWord 0x04#8 i)
  | .rdb j => .cmd16 (commandWord 0x05#8 j)
  | .rdx j => .cmd16 (commandWord 0x06#8 j)
  | .rds imm => .cmd16 (commandWord 0x07#8 imm)
  | .pad80 => .phase4 1#4
  | .padz => .phase4 2#4
  | .padl => .phase4 3#4
  | .ldiv => .phase4 4#4
  | .ldw => .phase4 5#4
  | .exp => .phase4 6#4
  | .ldv => .phase4 7#4
  | .rnd => .phase4 8#4
  | .fold => .phase4 9#4

end Sys2Proof
end

