-- ==== Sys2Proof/Machine/Arith.lean ====
section
/-! DEFINITION. The arithmetic of the core (40_arithmetic.md): 32-bit addition, rotation, shift, the six SHA-256
functions, bytes and nibbles of a word, and the arithmetic on lengths. -/

namespace Sys2Proof.Machine

/-- `add32` of two words: addition modulo `2^32`, never trapped (R121); longer sums nest it. -/
def add32 (x y : Word) : Word := x + y

/-- `rotr(x, n)`: 32-bit rotate right (R122). -/
def rotr (x : Word) (n : Nat) : Word := x.rotateRight n

/-- `shr(x, n)`: logical right shift (R123). -/
def shr (x : Word) (n : Nat) : Word := x >>> n

/-- `s0` (R125). -/
def s0 (x : Word) : Word := rotr x 7 ^^^ rotr x 18 ^^^ shr x 3

/-- `s1` (R126). -/
def s1 (x : Word) : Word := rotr x 17 ^^^ rotr x 19 ^^^ shr x 10

/-- `S0` (R127). -/
def S0 (x : Word) : Word := rotr x 2 ^^^ rotr x 13 ^^^ rotr x 22

/-- `S1` (R128). -/
def S1 (x : Word) : Word := rotr x 6 ^^^ rotr x 11 ^^^ rotr x 25

/-- `ch(e, f, g)` (R129). -/
def ch (e f g : Word) : Word := (e &&& f) ^^^ (~~~e &&& g)

/-- `maj(a, b, c)` (R130). -/
def maj (a b c : Word) : Word := (a &&& b) ^^^ (a &&& c) ^^^ (b &&& c)

/-- `be32(b0, b1, b2, b3)`: the first byte most significant (R131). -/
def be32 (b0 b1 b2 b3 : Byte) : Word := b0 ++ b1 ++ b2 ++ b3

/-- Byte `k` of a word, `0 <= k <= 3`, byte 0 most significant (R131). -/
def byteOfWord (x : Word) (k : Nat) : Byte := (x >>> (8 * (3 - k))).setWidth 8

/-- Nibble `k` of a word, `0 <= k <= 7`, nibble 0 most significant (R131). -/
def nibbleOfWord (x : Word) (k : Nat) : BitVec 4 := (x >>> (4 * (7 - k))).setWidth 4

/-- Byte `k` of a 64-bit value, `0 <= k <= 7`, byte 0 most significant (R8, R62). -/
def byteOfCount (x : Count) (k : Nat) : Byte := (x >>> (8 * (7 - k))).setWidth 8

/-- The 8 bytes of a 64-bit value in big-endian order (R62). -/
def beBytes (x : Count) : List Byte :=
  [byteOfCount x 0, byteOfCount x 1, byteOfCount x 2, byteOfCount x 3,
   byteOfCount x 4, byteOfCount x 5, byteOfCount x 6, byteOfCount x 7]

/-- The character code of a hexadecimal digit, lower case (R197, R221; the code is ASCII, G4, entry 12). -/
def hexCode (n : BitVec 4) : Byte :=
  if n.toNat < 10 then 0x30#8 + n.setWidth 8 else 0x57#8 + n.setWidth 8

/-- `ceil(x / y)` for naturals, `y > 0` (R9, R132). -/
def ceilDiv (x y : Nat) : Nat := (x + y - 1) / y

/-- The padded length `64 * ceil((L + 9) / 64)` of a message of `L` bytes (R140). -/
def plenOf (L : Nat) : Nat := 64 * ceilDiv (L + 9) 64

end Sys2Proof.Machine
end

