-- ==== Sys2Proof/Config.lean ====
section
/-! DEFINITION. What an implementation fixes (`CAP`, R6) and the free values of the model. -/

namespace Sys2Proof.Config

/-- The default capacity of the message buffer in bytes (R6, D3): the value of the state's `cap` at reset.
DESIGN CHOICE (entry 1): the spec leaves `CAP` open and gives this default. -/
def capDefault : Nat := 1048576

/-- The range the spec allows for `CAP`: a multiple of 64 from 64 to `2^61` (R6, U16). -/
abbrev CapLegal (cap : Nat) : Prop :=
  cap % 64 = 0 ∧ 64 ≤ cap ∧ cap ≤ 2 ^ 61

/-- The free values: what a register the spec leaves unspecified holds after a RESET move (R271, U15).
No body, so nothing can be proved about a value; the argument numbers the values handed out (entry 4). -/
opaque freeWord : Nat → Word

end Sys2Proof.Config
end

