-- ==== Sys2Proof/Machine/State.lean ====
section
/-! DEFINITION. The state of the machine as plain data, holding all that 10_state.md gives it, and its value after
reset (R43). -/

namespace Sys2Proof.Machine

/-- The twelve values of `PHASE` (R28). The reserved codes 12 to 15 have no constructor, the treatment 93 U6
prefers (entry 11). The 4-bit codes are Flags.lean's `phaseCode`. -/
inductive Phase where
  | idle
  | pad80
  | padz
  | padl
  | ldiv
  | ldw
  | exp
  | ldv
  | rnd
  | fold
  | done
  | error
deriving DecidableEq, Repr

/-- The three values `ECODE` takes (R37); the reserved value 3 has no constructor (entry 11). -/
inductive ErrorCode where
  /-- `EC_NONE`, code 0. -/
  | none
  /-- `EC_PUSH_FULL`, code 1. -/
  | pushFull
  /-- `EC_START_CAP`, code 2. -/
  | startCap
deriving DecidableEq, Repr

/-- The three response codes `RC` (R92, U7); code 3 is never produced. -/
inductive RespCode where
  | ok
  | errIf
  | errRes
deriving DecidableEq, Repr

/-- The response of a command: the pair `(RC, DATA)` (R92). -/
structure Response where
  rc : RespCode
  data : Word
deriving DecidableEq, Repr

/-- A move of the system (R11, R270): one host command, one turn of the core, or the RESET event. -/
inductive Move where
  /-- The host presents a command word (R91). -/
  | command (cw : CommandWord)
  /-- The core is scheduled once. -/
  | core
  /-- The environment resets the core (R270). -/
  | reset
deriving DecidableEq, Repr

/-- The state. The first ten groups are the spec's; `moves`, `responses` and `freeIndex` are the model's own
(entries 5, 8, 4), and `cap` is the parameter `CAP` (entry 1). -/
structure State where
  /-- `CAP`, the bytes of `MB` (R6); no move changes it. -/
  cap : Nat
  /-- `H[0..7]`, the hash state (R20). -/
  h : Vector Word 8
  /-- `V[0..7]`, the working variables `a .. h` (R22). -/
  v : Vector Word 8
  /-- `W[0..63]`, the message schedule (R23). -/
  w : Vector Word 64
  /-- `MB`, the written bytes of the message buffer (R32), in canonical form (Ops.lean). -/
  mb : List Host.Cell
  /-- `LEN` (R33). -/
  len : Count
  /-- `PLEN` (R34). -/
  plen : Count
  /-- `PP` (R35). -/
  pp : Count
  /-- `BLK` (R36). -/
  blk : Count
  /-- `T` (R31). -/
  t : BitVec 6
  /-- `PHASE` (R28). -/
  phase : Phase
  /-- `ECODE` (R37). -/
  ecode : ErrorCode
  /-- The moves still to come, oldest first; when empty, the core is the one to move. -/
  moves : List Move
  /-- The responses the port has returned, oldest first (R91, R92). -/
  responses : List Response
  /-- How many free values have been handed out. -/
  freeIndex : Nat
deriving DecidableEq, Repr

/-- Where the machine stops: accesses and counters the spec gives no behaviour. No run from reset reaches one
(R44, R45, R69), so each is safe: a model that stops proves no more than the machine does. -/
inductive Fault where
  /-- Raised by every memory operation of Ops.lean: an address outside `[0, CAP)`, which does not exist
  (R69, D26). Safe. -/
  | mbOutOfRange (addr : Nat)
  /-- Raised by `LDW`'s read of a byte nothing has written since reset: "a read of it is a model fault"
  (R43). Safe. -/
  | mbUnwritten (addr : Nat)
  /-- Raised by `PADL`, `LDW` and `EXP` when `T` is outside the range their rules give it (R145, R162, R163,
  R31). Safe. -/
  | stepCounterOutOfRange (t : BitVec 6)
deriving DecidableEq, Repr

/-- Instructions without a meaning. No arm of `exec` uses it: every operation is modelled. -/
inductive Refusal where
  /-- Raised by `exec` alone, for an instruction that has no meaning yet. Safe. -/
  | notModelled (mnemonic : String)
deriving DecidableEq, Repr

/-- The state after reset (R43): every control register 0, `PHASE = IDLE`. `H`, `V` and `W`, which the spec leaves
unspecified, are zero by DESIGN CHOICE (entry 2, unsafe); `MB` holds nothing (entry 3); `CAP` is the spec's default
(entry 1). -/
def State.reset : State where
  cap := Config.capDefault
  h := Vector.replicate 8 0#32
  v := Vector.replicate 8 0#32
  w := Vector.replicate 64 0#32
  mb := []
  len := 0#64
  plen := 0#64
  pp := 0#64
  blk := 0#64
  t := 0#6
  phase := .idle
  ecode := .none
  moves := []
  responses := []
  freeIndex := 0

/-- What executing an operation answers. -/
abbrev Result := Host.Outcome State Fault Refusal

end Sys2Proof.Machine
end

