-- ==== Sys2Proof/Machine/Ops.lean ====
section
/-! DEFINITION. The named operations over the message buffer, the port, the two errors (60_exceptions.md), the return
from the ERROR phase, the sequencer position and RESET. -/

namespace Sys2Proof.Machine

/-! ## The message buffer as data

A list of (address, byte) with strictly rising addresses. An address that is not listed holds no value: nothing has
written it since reset (R43). So no entry can equal what an unlisted address reads as, and no write removes one. -/

/-- The canonical form: addresses strictly rising. -/
abbrev Memory.wf (m : List Host.Cell) : Prop := m.Pairwise fun x y => x.1 < y.1

/-- The byte at an address, if one has been written. -/
def mbGet (m : List Host.Cell) (addr : Nat) : Option Byte :=
  match m with
  | [] => none
  | c :: rest => if c.1 = addr then some c.2 else mbGet rest addr

/-- The memory with one byte written, keeping the rising order. -/
def mbPut (m : List Host.Cell) (addr : Nat) (b : Byte) : List Host.Cell :=
  match m with
  | [] => [(addr, b)]
  | c :: rest =>
    if addr < c.1 then (addr, b) :: c :: rest
    else if c.1 = addr then (addr, b) :: rest
    else c :: mbPut rest addr b

/-- The memory with consecutive bytes written from an address up. -/
def mbPutList (m : List Host.Cell) (addr : Nat) : List Byte → List Host.Cell
  | [] => m
  | b :: bs => mbPutList (mbPut m addr b) (addr + 1) bs

/-! ## `MemRead` and `MemWrite` (R61, R62), partial outside `[0, CAP)` (R69, D26) -/

/-- `MemRead(addr, 1)` (R61). -/
def memRead1 (s : State) (addr : Nat) : Except Fault Byte :=
  if addr + 1 ≤ s.cap then
    match mbGet s.mb addr with
    | some b => .ok b
    | none => .error (.mbUnwritten addr)
  else .error (.mbOutOfRange addr)

/-- `MemRead(addr, 4)`: the byte at the lowest address most significant (R61). The fault names the first address of
the access. -/
def memRead4 (s : State) (addr : Nat) : Except Fault Word :=
  if addr + 4 ≤ s.cap then
    match mbGet s.mb addr, mbGet s.mb (addr + 1), mbGet s.mb (addr + 2), mbGet s.mb (addr + 3) with
    | some b0, some b1, some b2, some b3 => .ok (be32 b0 b1 b2 b3)
    | _, _, _, _ => .error (.mbUnwritten addr)
  else .error (.mbOutOfRange addr)

/-- `MemWrite(addr, 1, b)`: the buffer afterwards (R62). -/
def memWrite1 (s : State) (addr : Nat) (b : Byte) : Except Fault (List Host.Cell) :=
  if addr + 1 ≤ s.cap then .ok (mbPut s.mb addr b) else .error (.mbOutOfRange addr)

/-- `MemWrite(addr, 8, v)`: the most significant byte at the lowest address (R62). The hardware issues only 1-byte
writes; this form states what eight `PADL` steps amount to. -/
def memWrite8 (s : State) (addr : Nat) (v : Count) : Except Fault (List Host.Cell) :=
  if addr + 8 ≤ s.cap then .ok (mbPutList s.mb addr (beBytes v)) else .error (.mbOutOfRange addr)

/-- Go on with the result of a memory operation, or stop with its fault. -/
def andThen {α : Type} (r : Except Fault α) (k : α → Result) : Result :=
  match r with
  | .ok x => k x
  | .error f => .fault f

/-- Go on if `T` lies in the range `[lo, hi]` the micro-operation's rule gives it, or stop: the spec gives the
micro-operation no effect outside it (entry 9). -/
def withinSteps (s : State) (lo hi : Nat) (k : Result) : Result :=
  if lo ≤ s.t.toNat ∧ s.t.toNat ≤ hi then k else .fault (.stepCounterOutOfRange s.t)

/-! ## Codes -/

/-- The 2-bit code of `RC` (R92). -/
def rcCode (r : RespCode) : BitVec 2 :=
  match r with
  | .ok => 0#2
  | .errIf => 1#2
  | .errRes => 2#2

/-- The 2-bit code of `ECODE` (R37). -/
def ecodeCode (e : ErrorCode) : BitVec 2 :=
  match e with
  | .none => 0#2
  | .pushFull => 1#2
  | .startCap => 2#2

/-- The causes of an interface error (R243). -/
inductive IfCause where
  /-- `IF_OPCODE`. -/
  | opcode
  /-- `IF_OPERAND`. -/
  | operand
  /-- `IF_PHASE`. -/
  | phase
deriving DecidableEq, Repr

/-- The sub-cause number of an interface error (R243). -/
def ifSub (c : IfCause) : Word :=
  match c with
  | .opcode => 1#32
  | .operand => 2#32
  | .phase => 3#32

/-! ## Responses and the two errors -/

/-- `respond(rc, data)`: the response of a command, put after the earlier ones (R9, R92; entry 8). -/
def respond (rc : RespCode) (data : Word) (s : State) : State :=
  { s with responses := s.responses ++ [{ rc := rc, data := data }] }

/-- `respond(OK, data)`. -/
def respondOk (data : Word) (s : State) : State := respond .ok data s

/-- `raise IfError(sub)`: the command is refused, no architectural state changes, and the response is `(ERR_IF, sub)`
(R241). -/
def raiseIf (c : IfCause) (s : State) : State := respond .errIf (ifSub c) s

/-- `raise ResError(code)`, the only entry to the ERROR phase: `PHASE <- ERROR`, `ECODE <- code`, no other state
changes, and the response is `(ERR_RES, code)` (R242, R250). -/
def raiseRes (e : ErrorCode) (s : State) : State :=
  respond .errRes ((ecodeCode e).setWidth 32) { s with phase := .error, ecode := e }

/-- The effect of `CLR`, which is also the return from ERROR (R216, R252): the control registers to 0, `PHASE` to
`IDLE`. Nothing is restored, and `H`, `V`, `W` and `MB` are kept (R47). -/
def clearControl (s : State) : State :=
  { s with len := 0#64, plen := 0#64, pp := 0#64, blk := 0#64, t := 0#6, ecode := .none, phase := .idle }

/-! ## Sequencer and RESET -/

/-- `SEQ <- (phase, blk, t)` (R9, R30). -/
def setSeq (p : Phase) (blk : Count) (t : BitVec 6) (s : State) : State :=
  { s with phase := p, blk := blk, t := t }

/-- `n` free values in a row, from number `start` on (entry 4). -/
def freeWords (n start : Nat) : Vector Word n := Vector.ofFn fun i => Config.freeWord (start + i.val)

/-- The RESET event (R270): every control register at its reset value. The spec promises nothing about `H`, `V`, `W`
and `MB` afterwards (R271, U15): the registers take free values and `MB` counts as unwritten (entry 4). -/
def resetCore (s : State) : State :=
  { clearControl s with
    h := freeWords 8 s.freeIndex
    v := freeWords 8 (s.freeIndex + 8)
    w := freeWords 64 (s.freeIndex + 16)
    mb := []
    freeIndex := s.freeIndex + 80 }

/-- The state with the list of moves replaced. -/
def setMoves (l : List Move) (s : State) : State := { s with moves := l }

end Sys2Proof.Machine
end

