-- ==== Sys2Proof/Machine/Flags.lean ====
section
/-! DEFINITION. The status flags and `STATUS`, all functions of `PHASE` and `ECODE` (10_state.md R38, R40), the codes
and classes of `PHASE` (R28, R29), and which phases accept a command (45_host_commands.md R223). The core has no
arithmetic flags (R39). -/

namespace Sys2Proof.Machine

/-- The 4-bit code of `PHASE` (R28). -/
def phaseCode (p : Phase) : BitVec 4 :=
  match p with
  | .idle => 0#4
  | .pad80 => 1#4
  | .padz => 2#4
  | .padl => 3#4
  | .ldiv => 4#4
  | .ldw => 5#4
  | .exp => 6#4
  | .ldv => 7#4
  | .rnd => 8#4
  | .fold => 9#4
  | .done => 10#4
  | .error => 11#4

/-- The phase of a code (R28); the reserved codes 12 to 15 name none (R100). -/
def phaseOfCode (c : BitVec 4) : Option Phase :=
  match c.toNat with
  | 0 => some .idle
  | 1 => some .pad80
  | 2 => some .padz
  | 3 => some .padl
  | 4 => some .ldiv
  | 5 => some .ldw
  | 6 => some .exp
  | 7 => some .ldv
  | 8 => some .rnd
  | 9 => some .fold
  | 10 => some .done
  | 11 => some .error
  | _ => none

/-- `busy(PHASE)`: `1 <= PHASE <= 9` (R29). -/
def busy (p : Phase) : Bool := decide (1 ≤ (phaseCode p).toNat) && decide ((phaseCode p).toNat ≤ 9)

/-- Flag `RDY` (R38). -/
def flagRdy (s : State) : Bool := decide (s.phase = .idle)

/-- Flag `BUSY` (R38). -/
def flagBusy (s : State) : Bool := busy s.phase

/-- Flag `VALID` (R38). -/
def flagValid (s : State) : Bool := decide (s.phase = .done)

/-- Flag `ERR` (R38). -/
def flagErr (s : State) : Bool := decide (s.phase = .error)

/-- `STATUS`: bits 31:6 zero, 5:4 `ECODE`, 3 `ERR`, 2 `VALID`, 1 `BUSY`, 0 `RDY` (R40). -/
def statusWord (s : State) : Word :=
  0#26 ++ ecodeCode s.ecode ++ BitVec.ofBool (flagErr s) ++ BitVec.ofBool (flagValid s)
    ++ BitVec.ofBool (flagBusy s) ++ BitVec.ofBool (flagRdy s)

/-- `CLR` is accepted when the core is not busy (R223). -/
def acceptsClr (s : State) : Bool := !flagBusy s

/-- `PUSH` and `START` are accepted in `IDLE` (R223). -/
def acceptsLoad (s : State) : Bool := flagRdy s

/-- `RDW`, `RDB` and `RDX` are accepted in `DONE` (R223). -/
def acceptsRead (s : State) : Bool := flagValid s

end Sys2Proof.Machine
end

