-- ==== Sys2Proof/Machine/Rom.lean ====
section
/-! DEFINITION. The two read-only memories (10_state.md R25): the initialisation constants `IV` (R26) and the round
constants `K` (R27). The spec marks the values as general knowledge, not in its source (G1, G2; entry 12). No operation
writes them and RESET does not touch them (R77, R272). -/

namespace Sys2Proof.Machine

/-- `IV[0..7]` (R26). -/
def ivRom : Vector Word 8 :=
  #v[0x6A09E667#32, 0xBB67AE85#32, 0x3C6EF372#32, 0xA54FF53A#32,
     0x510E527F#32, 0x9B05688C#32, 0x1F83D9AB#32, 0x5BE0CD19#32]

/-- `K[0..15]` (R27). -/
def kRows0 : Vector Word 16 :=
  #v[0x428A2F98#32, 0x71374491#32, 0xB5C0FBCF#32, 0xE9B5DBA5#32,
     0x3956C25B#32, 0x59F111F1#32, 0x923F82A4#32, 0xAB1C5ED5#32,
     0xD807AA98#32, 0x12835B01#32, 0x243185BE#32, 0x550C7DC3#32,
     0x72BE5D74#32, 0x80DEB1FE#32, 0x9BDC06A7#32, 0xC19BF174#32]

/-- `K[16..31]` (R27). -/
def kRows1 : Vector Word 16 :=
  #v[0xE49B69C1#32, 0xEFBE4786#32, 0x0FC19DC6#32, 0x240CA1CC#32,
     0x2DE92C6F#32, 0x4A7484AA#32, 0x5CB0A9DC#32, 0x76F988DA#32,
     0x983E5152#32, 0xA831C66D#32, 0xB00327C8#32, 0xBF597FC7#32,
     0xC6E00BF3#32, 0xD5A79147#32, 0x06CA6351#32, 0x14292967#32]

/-- `K[32..47]` (R27). -/
def kRows2 : Vector Word 16 :=
  #v[0x27B70A85#32, 0x2E1B2138#32, 0x4D2C6DFC#32, 0x53380D13#32,
     0x650A7354#32, 0x766A0ABB#32, 0x81C2C92E#32, 0x92722C85#32,
     0xA2BFE8A1#32, 0xA81A664B#32, 0xC24B8B70#32, 0xC76C51A3#32,
     0xD192E819#32, 0xD6990624#32, 0xF40E3585#32, 0x106AA070#32]

/-- `K[48..63]` (R27). -/
def kRows3 : Vector Word 16 :=
  #v[0x19A4C116#32, 0x1E376C08#32, 0x2748774C#32, 0x34B0BCB5#32,
     0x391C0CB3#32, 0x4ED8AA4A#32, 0x5B9CCA4F#32, 0x682E6FF3#32,
     0x748F82EE#32, 0x78A5636F#32, 0x84C87814#32, 0x8CC70208#32,
     0x90BEFFFA#32, 0xA4506CEB#32, 0xBEF9A3F7#32, 0xC67178F2#32]

/-- `K[0..63]` (R27). -/
def kRom : Vector Word 64 := kRows0 ++ kRows1 ++ kRows2 ++ kRows3

end Sys2Proof.Machine
end

