-- ==== Sys2Proof/Machine/Functions.lean ====
section
/-! DEFINITION. The functions the machine computes: `pad` (R141), `schedule` (R160, R161), `round` (R176), `compress`
(R175), `sha256_words` (R195) and the digest's byte and text forms (R196, R197). -/

namespace Sys2Proof.Machine

/-- `pad(M)`: the message, the byte `0x80`, `P - L - 9` zero bytes, and `8 * L` in 8 big-endian bytes (R141). -/
def pad (M : List Byte) : List Byte :=
  M ++ [0x80#8] ++ List.replicate (plenOf M.length - M.length - 9) 0#8
    ++ beBytes (BitVec.ofNat 64 (8 * M.length))

/-- `pad(M)[x]` byte by byte (R141), for `x` below the padded length. -/
def padByte (M : List Byte) (x : Nat) : Byte :=
  if h : x < M.length then M[x]
  else if x = M.length then 0x80#8
  else if x < plenOf M.length - 8 then 0#8
  else BitVec.ofNat 8 ((8 * M.length) >>> (8 * (plenOf M.length - 1 - x)))

/-- A 64-byte block. -/
abbrev Block := Vector Byte 64

/-- Block `k` of a padded message, `p[64k .. 64k+63]` (R195). A padded message is a multiple of 64 bytes long, so no
block below its block count reads past the end. -/
def blockOf (p : List Byte) (k : Nat) : Block :=
  Vector.ofFn fun i : Fin 64 => p.getD (64 * k + i.val) 0#8

/-- Word `i` of a block, `i < 16`: four bytes, big-endian (R160). -/
def blockWord (B : Block) (i : Nat) (h : i < 16) : Word :=
  be32 B[4 * i] B[4 * i + 1] B[4 * i + 2] B[4 * i + 3]

/-- The next schedule word from the earlier ones (R161): `w[i-16] + s0(w[i-15]) + w[i-7] + s1(w[i-2])`. -/
def expandWord (w16 w15 w7 w2 : Word) : Word :=
  add32 (add32 (add32 w16 (s0 w15)) w7) (s1 w2)

/-- The first `n` words of the schedule of a block, computed in increasing order (R160, R161). -/
def scheduleUpTo (B : Block) : (n : Nat) → Vector Word n
  | 0 => #v[]
  | n + 1 =>
    let prev := scheduleUpTo B n
    if h : n < 16 then prev.push (blockWord B n h)
    else prev.push (expandWord prev[n - 16] prev[n - 15] prev[n - 7] prev[n - 2])

/-- `schedule(B)`: the 64-word message schedule of a block (R161). -/
def schedule (B : Block) : Vector Word 64 := scheduleUpTo B 64

/-- `round(v, k, w)`: one round, every right side reading the old variables (R176). -/
def round (v : Vector Word 8) (k w : Word) : Vector Word 8 :=
  let a := v[0]
  let b := v[1]
  let c := v[2]
  let d := v[3]
  let e := v[4]
  let f := v[5]
  let g := v[6]
  let h := v[7]
  let t1 := add32 (add32 (add32 (add32 h (S1 e)) (ch e f g)) k) w
  let t2 := add32 (S0 a) (maj a b c)
  #v[add32 t1 t2, a, b, c, add32 d t1, e, f, g]

/-- The working variables after the first `n` rounds, `n <= 64`, round `i` using `K[i]` and `w[i]` (R175, R180). -/
def roundsUpTo (hs : Vector Word 8) (w : Vector Word 64) : Nat → Vector Word 8
  | 0 => hs
  | n + 1 => if h : n < 64 then round (roundsUpTo hs w n) kRom[n] w[n] else roundsUpTo hs w n

/-- Elementwise `add32` of two register files (R175, R179). -/
def addWords (x y : Vector Word 8) : Vector Word 8 :=
  #v[add32 x[0] y[0], add32 x[1] y[1], add32 x[2] y[2], add32 x[3] y[3],
     add32 x[4] y[4], add32 x[5] y[5], add32 x[6] y[6], add32 x[7] y[7]]

/-- `compress(hs, w)` (R175). -/
def compress (hs : Vector Word 8) (w : Vector Word 64) : Vector Word 8 :=
  addWords hs (roundsUpTo hs w 64)

/-- The hash state after the first `n` blocks of a padded message, starting from `IV` (R195). -/
def hashBlocks (p : List Byte) : Nat → Vector Word 8
  | 0 => ivRom
  | n + 1 => compress (hashBlocks p n) (schedule (blockOf p n))

/-- `sha256_words(M)` (R195). -/
def sha256Words (M : List Byte) : Vector Word 8 :=
  hashBlocks (pad M) (plenOf M.length / 64)

/-- Byte `j` of the digest, `j < 32`: `digest_bytes(hs)[j]` (R196). -/
def digestByte (hs : Vector Word 8) (j : Nat) (h : j < 32) : Byte :=
  byteOfWord hs[j / 4] (j % 4)

/-- The code of character `j` of the digest's text, `j < 64`: `digest_hex(hs)[j]` (R197). -/
def digestHexCode (hs : Vector Word 8) (j : Nat) (h : j < 64) : Byte :=
  hexCode (nibbleOfWord hs[j / 8] (j % 8))

end Sys2Proof.Machine
end

