-- ==== Sys2Proof/Machine/Operands.lean ====
section
/-! DEFINITION. The operand forms: the legal ranges of `imm` (30_encoding.md R93), the order of a command's checks
(60_exceptions.md R246), and the implicit operands the micro-operations compute from the control registers. Conditions
on lengths and addresses are computed exactly, on naturals and integers, and narrowed only when a register is written
(entry 10). -/

namespace Sys2Proof.Machine

/-! ## Command operands -/

/-- `imm = 0`: the operand of `NOP`, `CLR`, `START` and `RDS` (R93). -/
def immZero (imm : Byte) : Bool := decide (imm = 0#8)

/-- `imm <= n`: the operand of `RDW`, `RDB` and `RDX` (R93). -/
def immUpTo (n : Nat) (imm : Byte) : Bool := decide (imm.toNat ≤ n)

/-- Checks 2 and 3 of R246, then the command: an operand out of range is `IfError(2)`, a phase that does not accept
the command is `IfError(3)`. -/
def guarded (legal accepted : Bool) (s : State) (k : Result) : Result :=
  if !legal then .next (raiseIf .operand s)
  else if !accepted then .next (raiseIf .phase s)
  else k

/-- Digest word `i` (R219). A legal `i` is at most 7; the remainder only makes the index total. -/
def digestWordAt (s : State) (i : Byte) : Word :=
  s.h[i.toNat % 8]'(Nat.mod_lt _ (by decide))

/-- Digest byte `j`, zero-extended: word `j div 4`, byte `j mod 4` (R220). -/
def digestByteAt (s : State) (j : Byte) : Word :=
  (digestByte s.h (j.toNat % 32) (Nat.mod_lt _ (by decide))).setWidth 32

/-- The code of digest character `j`, zero-extended: word `j div 8`, nibble `j mod 8` (R221). -/
def digestCharAt (s : State) (j : Byte) : Word :=
  (digestHexCode s.h (j.toNat % 64) (Nat.mod_lt _ (by decide))).setWidth 32

/-! ## Implicit operands of the micro-operations -/

/-- `LEN + 1 < PLEN - 8`: there is a zero byte to write after the marker (R143). -/
def zerosFollowMarker (s : State) : Bool := decide ((s.len.toNat : Int) + 1 < (s.plen.toNat : Int) - 8)

/-- `PP + 1 = PLEN - 8`: this zero byte is the last (R144). -/
def lastZeroByte (s : State) : Bool := decide ((s.pp.toNat : Int) + 1 = (s.plen.toNat : Int) - 8)

/-- `8 * LEN`, 64-bit unsigned (R145). -/
def bitLength (s : State) : Count := 8#64 * s.len

/-- The trailer byte of the step: byte `T` of the big-endian `8 * LEN` (R145). -/
def trailerByte (s : State) : Byte := byteOfCount (bitLength s) s.t.toNat

/-- The address of the schedule word being loaded: `64 * BLK + 4 * T` (R162). -/
def blockWordAddr (s : State) : Nat := 64 * s.blk.toNat + 4 * s.t.toNat

/-- `64 * (BLK + 1) = PLEN`: this is the last block (R179). -/
def lastBlock (s : State) : Bool := decide (64 * (s.blk.toNat + 1) = s.plen.toNat)

/-- `W[T]` (R178). -/
def wAtT (s : State) : Word := s.w[s.t.toNat]'s.t.isLt

/-- `W[T - d]` for `d` at most `T`, as `EXP` reads it (R163). -/
def wBack (s : State) (d : Nat) : Word :=
  s.w[s.t.toNat - d]'(Nat.lt_of_le_of_lt (Nat.sub_le _ _) s.t.isLt)

/-- `W[T] <- x` (R162, R163). -/
def putW (s : State) (x : Word) : Vector Word 64 := s.w.set s.t.toNat x s.t.isLt

/-- `K[T]` (R178, R180). -/
def kAtT (s : State) : Word := kRom[s.t.toNat]'s.t.isLt

end Sys2Proof.Machine
end

