-- ==== Sys2Proof/Machine/Compressor.lean ====
section
/-! DEFINITION. The micro-operations of the compression engine (43_compressor.md). -/

namespace Sys2Proof.Machine

/-- `LDV`: the working variables from the hash state (R177). -/
def execLdv (s : State) : Result :=
  .next { s with v := s.h, t := 0#6, phase := .rnd }

/-- `RND`: one compression round with `K[T]` and `W[T]` (R178). -/
def execRnd (s : State) : Result :=
  .next { s with
    v := round s.v (kAtT s) (wAtT s)
    t := if s.t = 63#6 then 0#6 else s.t + 1#6
    phase := if s.t = 63#6 then .fold else s.phase }

/-- `FOLD`: the working variables added into the hash state, then the next block or the end (R179). -/
def execFold (s : State) : Result :=
  .next { s with
    h := addWords s.h s.v
    blk := s.blk + 1#64
    t := 0#6
    phase := if lastBlock s then .done else .ldw }

end Sys2Proof.Machine
end

