-- ==== Sys2Proof/Machine/DigestAssembler.lean ====
section
/-! DEFINITION. The micro-operation of the digest assembler (44_digest_assembler.md). -/

namespace Sys2Proof.Machine

/-- `LDIV`: the hash state from the initialisation constants, block 0 (R198). -/
def execLdiv (s : State) : Result :=
  .next (setSeq .ldw 0#64 0#6 { s with h := ivRom })

end Sys2Proof.Machine
end

