-- ==== Sys2Proof/Machine/HostCommands.lean ====
section
/-! DEFINITION. The eight host commands (45_host_commands.md): each a check of the operand, a check of the phase, for
`PUSH` and `START` the capacity, then the effect and the response (R246), all in one step (R91). -/

namespace Sys2Proof.Machine

/-- `NOP` (R215). -/
def execNop (imm : Byte) (s : State) : Result :=
  guarded (immZero imm) true s (.next (respondOk 0#32 s))

/-- `CLR` (R216). -/
def execClr (imm : Byte) (s : State) : Result :=
  guarded (immZero imm) (acceptsClr s) s (.next (respondOk 0#32 (clearControl s)))

/-- `PUSH b` (R217). -/
def execPush (b : Byte) (s : State) : Result :=
  guarded true (acceptsLoad s) s
    (if s.len.toNat = s.cap then .next (raiseRes .pushFull s)
     else andThen (memWrite1 s s.len.toNat b) fun m =>
       .next (respondOk 0#32 { s with mb := m, len := s.len + 1#64 }))

/-- `START` (R218). -/
def execStart (imm : Byte) (s : State) : Result :=
  guarded (immZero imm) (acceptsLoad s) s
    (if s.cap < plenOf s.len.toNat then .next (raiseRes .startCap s)
     else .next (respondOk 0#32
       (setSeq .pad80 0#64 0#6 { s with plen := BitVec.ofNat 64 (plenOf s.len.toNat), pp := s.len })))

/-- `RDW i` (R219). -/
def execRdw (i : Byte) (s : State) : Result :=
  guarded (immUpTo 7 i) (acceptsRead s) s (.next (respondOk (digestWordAt s i) s))

/-- `RDB j` (R220). -/
def execRdb (j : Byte) (s : State) : Result :=
  guarded (immUpTo 31 j) (acceptsRead s) s (.next (respondOk (digestByteAt s j) s))

/-- `RDX j` (R221). -/
def execRdx (j : Byte) (s : State) : Result :=
  guarded (immUpTo 63 j) (acceptsRead s) s (.next (respondOk (digestCharAt s j) s))

/-- `RDS` (R222). -/
def execRds (imm : Byte) (s : State) : Result :=
  guarded (immZero imm) true s (.next (respondOk (statusWord s) s))

end Sys2Proof.Machine
end

