-- ==== Sys2Proof/Machine/Preprocessor.lean ====
section
/-! DEFINITION. The padding micro-operations (41_preprocessor.md). Every right side reads the state as it was before
the operation (R9). -/

namespace Sys2Proof.Machine

/-- `PAD80`: the marker byte at `LEN` (R143). -/
def execPad80 (s : State) : Result :=
  andThen (memWrite1 s s.len.toNat 0x80#8) fun m =>
    .next { s with mb := m, pp := s.len + 1#64, t := 0#6,
                   phase := if zerosFollowMarker s then .padz else .padl }

/-- `PADZ`: one zero byte at `PP` (R144). -/
def execPadz (s : State) : Result :=
  andThen (memWrite1 s s.pp.toNat 0x00#8) fun m =>
    .next { s with mb := m, pp := s.pp + 1#64,
                   phase := if lastZeroByte s then .padl else s.phase }

/-- `PADL`: one byte of the length trailer at `PP` (R145). -/
def execPadl (s : State) : Result :=
  withinSteps s 0 7
    (andThen (memWrite1 s s.pp.toNat (trailerByte s)) fun m =>
      if s.t = 7#6 then .next { s with mb := m, pp := s.pp + 1#64, t := 0#6, phase := .ldiv }
      else .next { s with mb := m, pp := s.pp + 1#64, t := s.t + 1#6 })

end Sys2Proof.Machine
end

