-- ==== Sys2Proof/Machine/ScheduleExpander.lean ====
section
/-! DEFINITION. The micro-operations of the message schedule expander (42_schedule_expander.md). -/

namespace Sys2Proof.Machine

/-- `LDW`: one schedule word from the current block (R162). -/
def execLdw (s : State) : Result :=
  withinSteps s 0 15
    (andThen (memRead4 s (blockWordAddr s)) fun x =>
      .next { s with w := putW s x, t := s.t + 1#6,
                     phase := if s.t = 15#6 then .exp else s.phase })

/-- `EXP`: one expanded schedule word (R163). -/
def execExp (s : State) : Result :=
  withinSteps s 16 63
    (.next { s with
      w := putW s (expandWord (wBack s 16) (wBack s 15) (wBack s 7) (wBack s 2))
      t := if s.t = 63#6 then 0#6 else s.t + 1#6
      phase := if s.t = 63#6 then .ldv else s.phase })

end Sys2Proof.Machine
end

