-- ==== Sys2Proof/Machine/Dispatch.lean ====
section
/-! DEFINITION. The meaning of every operation: one arm per row of the opcode table. -/

namespace Sys2Proof.Machine

/-- Execute one operation. -/
def exec (i : Instr) (s : State) : Host.Outcome State Fault Refusal :=
  match i with
  | .nop imm => Sys2Proof.Machine.execNop imm s
  | .clr imm => Sys2Proof.Machine.execClr imm s
  | .push b => Sys2Proof.Machine.execPush b s
  | .start imm => Sys2Proof.Machine.execStart imm s
  | .rdw k => Sys2Proof.Machine.execRdw k s
  | .rdb j => Sys2Proof.Machine.execRdb j s
  | .rdx j => Sys2Proof.Machine.execRdx j s
  | .rds imm => Sys2Proof.Machine.execRds imm s
  | .pad80 => Sys2Proof.Machine.execPad80 s
  | .padz => Sys2Proof.Machine.execPadz s
  | .padl => Sys2Proof.Machine.execPadl s
  | .ldiv => Sys2Proof.Machine.execLdiv s
  | .ldw => Sys2Proof.Machine.execLdw s
  | .exp => Sys2Proof.Machine.execExp s
  | .ldv => Sys2Proof.Machine.execLdv s
  | .rnd => Sys2Proof.Machine.execRnd s
  | .fold => Sys2Proof.Machine.execFold s

end Sys2Proof.Machine
end

