-- ==== Sys2Proof/Machine/Agents.lean ====
section
/-! DEFINITION. The agents (00_scope.md R11, 70_reset_and_hazards.md R270): one atomic step of the host, of the core and
of the environment, and which of them moves next. -/

namespace Sys2Proof.Machine

/-- The refusal of an illegal command word, checks 1 and 2 of R246. -/
def illegalCause (r : IllegalCommand) : IfCause :=
  match r with
  | .reservedOpcode => .opcode
  | .operandRange => .operand

/-- A host step: the command word is decoded, checked, performed and answered at once (R91). -/
def hostStep (cw : CommandWord) (s : State) : Result :=
  match decodeCommand cw with
  | .ok i => exec i s
  | .error r => .next (raiseIf (illegalCause r) s)

/-- A core step: the micro-operation `PHASE` selects (R29, R99). In `IDLE`, `DONE` and `ERROR` the core has no step
and nothing changes (entry 7). -/
def coreStep (s : State) : Result :=
  match decodePhase (phaseCode s.phase) with
  | .ok i => exec i s
  | .error _ => .next s

/-- One step of the system: the oldest move listed, or the core's when none is (R11, R287; entry 5). -/
def systemStep (s : State) : Result :=
  match s.moves with
  | [] => coreStep s
  | .command cw :: rest => hostStep cw (setMoves rest s)
  | .core :: rest => coreStep (setMoves rest s)
  | .reset :: rest => .next (resetCore (setMoves rest s))

/-- The value of `T` on entry to a phase (R199): 16 in `EXP`, else 0. -/
def entryT (p : Phase) : BitVec 6 := if p = .exp then 16#6 else 0#6

/-- Place an instruction of the opcode table where the next step takes it from: a command word is presented at the
command port; a micro-operation is selected by putting the sequencer at the entry of its phase, the core to move
(entry 6). -/
def presentWord (s : State) (nbits w : Nat) : State :=
  if nbits = 16 then setMoves (.command (BitVec.ofNat 16 w) :: s.moves) s
  else
    match phaseOfCode (BitVec.ofNat 4 w) with
    | some p => setMoves (.core :: s.moves) (setSeq p s.blk (entryT p) s)
    | none => s

end Sys2Proof.Machine
end

