-- ==== Sys2Proof/Machine/Step.lean ====
section
/-! DEFINITION. One step of the machine. The work is Agents.lean's. -/

namespace Sys2Proof.Machine

/-- One step of the system of host, core and environment. -/
def step (s : State) : Host.Outcome State Fault Refusal := systemStep s

/-- The state with an instruction of the opcode table placed where `step` takes its next one from. -/
def State.withFetchWord (s : State) (nbits w : Nat) : State := presentWord s nbits w

end Sys2Proof.Machine
end

