-- ==== Sys2Proof/Machine/Pseudo.lean ====
section
/-! DEFINITION. The pseudo-operations of host programs, each the list of command words it stands for (30_encoding.md
R103). `WAIT` is a loop of the host and stands for no fixed list: a host that waits gives the core its turns. -/

namespace Sys2Proof.Machine

/-- `PUSHS`: the bytes of a text, one `PUSH` each (R103; the text is given as its bytes, R4). -/
def pushsWords (M : List Byte) : List CommandWord := M.map (commandWord 0x02#8)

/-- `PUSHN b, n`: `n` times `PUSH b`. -/
def pushnWords (b : Byte) (n : Nat) : List CommandWord := List.replicate n (commandWord 0x02#8 b)

/-- `n` reads of one opcode, with the operands `0 .. n-1`. -/
def readWords (op : Byte) (n : Nat) : List CommandWord :=
  (List.range n).map fun k => commandWord op (BitVec.ofNat 8 k)

/-- `RDIGEST`: `RDW 0 .. RDW 7`. -/
def rdigestWords : List CommandWord := readWords 0x04#8 8

/-- `RDBYTES`: `RDB 0 .. RDB 31`. -/
def rdbytesWords : List CommandWord := readWords 0x05#8 32

/-- `RDHEX`: `RDX 0 .. RDX 63`. -/
def rdhexWords : List CommandWord := readWords 0x06#8 64

/-- `HASH` up to its `WAIT`: `CLR`, the message pushed, `START` (R10, R204). -/
def callWords (M : List Byte) : List CommandWord := 0x0100#16 :: pushsWords M ++ [0x0300#16]

end Sys2Proof.Machine
end

