-- ==== Sys2Proof/Safety.lean ====
section
/-! DEFINITION. What claims are stated in terms of: runs and when they have ended well (R288), the invariants of the
control registers and of the written bytes (10_state.md R44, R45), the invariant that ties the registers to the SHA-256
functions, and the number of core steps left (R203). -/

namespace Sys2Proof.Machine

/-- `n` steps of the machine, stopping at the first fault or refusal. -/
def runSteps : Nat → State → Result
  | 0, s => .next s
  | n + 1, s =>
    match step s with
    | .next t => runSteps n t
    | .fault f => .fault f
    | .refused r => .refused r

/-- A run has ended: no move is left and the core has no step (R288). -/
abbrev Ended (s : State) : Prop := s.moves = [] ∧ busy s.phase = false

/-- The command words of a list of moves, in order. -/
def commandsOf (l : List Move) : List CommandWord :=
  l.filterMap fun m => match m with
    | .command cw => some cw
    | .core => none
    | .reset => none

/-- The commands of a run from `s` to `u`, each with its response (R92: one response a command). -/
def answers (s u : State) : List (CommandWord × Response) :=
  (commandsOf s.moves).zip (u.responses.drop s.responses.length)

/-- The commands are those of a call `digest(M)`, `HASH` of R103: `CLR`, the message pushed, `START`, `RDIGEST`. The
polls `RDS` of `WAIT` may stand anywhere among them, and in `IDLE` with no byte pushed, as after reset, `CLR` may be left
out (R276). -/
def IsCall (M : List Byte) (s : State) : Prop :=
  let words := (commandsOf s.moves).filter (· ≠ 0x0700#16)
  words = callWords M ++ rdigestWords ∨
    (s.phase = .idle ∧ s.len = 0#64 ∧ words = (callWords M).tail ++ rdigestWords)

/-- The run from `s` to `u` has ended well for the call `digest(M)` (R288): it is a run of host commands and core steps
alone, it has ended, the phase is `DONE`, and the eight `RDW` responses were `OK`. -/
structure EndedWell (M : List Byte) (s u : State) : Prop where
  noReset : Move.reset ∉ s.moves
  call : IsCall M s
  reached : ∃ n, runSteps n s = .next u
  ended : Ended u
  done : u.phase = .done
  readsOk : ∀ a ∈ answers s u, a.1 ∈ rdigestWords → a.2.rc = .ok

/-- Every byte of `[0, n)` has been written since reset. -/
abbrev Written (m : List Host.Cell) (n : Nat) : Prop := ∀ a, a < n → (mbGet m a).isSome = true

/-- The range of `T` in each phase (R31, R45). -/
def TInRange (s : State) : Prop :=
  match s.phase with
  | .padl => s.t.toNat ≤ 7
  | .ldw => s.t.toNat ≤ 15
  | .exp => 16 ≤ s.t.toNat
  | .rnd => True
  | .idle | .pad80 | .padz | .ldiv | .ldv | .fold | .done | .error => s.t = 0#6

/-- Where the pad pointer is in each phase (R35, R45). -/
def PadPointerInPlace (s : State) : Prop :=
  match s.phase with
  | .idle | .error => s.pp = 0#64
  | .pad80 => s.pp = s.len
  | .padz => s.len.toNat + 1 ≤ s.pp.toNat ∧ s.pp.toNat + 8 < s.plen.toNat
  | .padl => s.pp.toNat + 8 = s.plen.toNat + s.t.toNat
  | .ldiv | .ldw | .exp | .ldv | .rnd | .fold | .done => s.pp = s.plen

/-- Where the block counter is in each phase (R36, R45). -/
def BlockInPlace (s : State) : Prop :=
  match s.phase with
  | .idle | .error | .pad80 | .padz | .padl | .ldiv => s.blk = 0#64
  | .ldw | .exp | .ldv | .rnd | .fold => 64 * s.blk.toNat < s.plen.toNat
  | .done => 64 * s.blk.toNat = s.plen.toNat

/-- Which bytes of `MB` the present computation has written (R44, R68). -/
def BytesWritten (s : State) : Prop :=
  match s.phase with
  | .idle | .error | .pad80 => Written s.mb s.len.toNat
  | .padz | .padl => Written s.mb s.pp.toNat
  | .ldiv | .ldw | .exp | .ldv | .rnd | .fold | .done => Written s.mb s.plen.toNat

/-- The invariant of the control state and the buffer: R45 and R44, `CAP` in its range (R6), `MB` in canonical form
and inside `[0, CAP)` (R60, R69). -/
structure CoreInv (s : State) : Prop where
  capLegal : Config.CapLegal s.cap
  mbCanonical : Memory.wf s.mb
  mbInside : ∀ c ∈ s.mb, c.1 < s.cap
  lenBound : s.len.toNat ≤ s.cap
  plenForm : s.plen = 0#64 ∨ (s.plen.toNat % 64 = 0 ∧ s.len.toNat + 9 ≤ s.plen.toNat ∧
    s.plen.toNat ≤ s.cap ∧ s.plen.toNat < s.len.toNat + 73)
  plenZero : s.plen = 0#64 ↔ (s.phase = .idle ∨ s.phase = .error)
  ppBound : s.pp.toNat ≤ s.plen.toNat
  blkBound : 64 * s.blk.toNat ≤ s.plen.toNat
  ecodeError : s.ecode ≠ .none ↔ s.phase = .error
  tInRange : TInRange s
  padPointer : PadPointerInPlace s
  blockPlace : BlockInPlace s
  written : BytesWritten s

/-- The message of the present call: the bytes at `[0, LEN)` (R33, R68). In a state that meets `CoreInv` each of them has
been written, so the default is never taken. -/
def message (s : State) : List Byte :=
  (List.range s.len.toNat).map fun a => (mbGet s.mb a).getD 0#8

/-- The bytes of `[0, n)` are those of the padded message (R141). -/
abbrev PaddedTo (s : State) (n : Nat) : Prop :=
  ∀ x, x < n → mbGet s.mb x = some (padByte (message s) x)

/-- The padded message is complete and `H` is the hash state after the first `BLK` blocks (R195, R200). -/
def Chained (s : State) : Prop :=
  PaddedTo s s.plen.toNat ∧ s.h = hashBlocks (pad (message s)) s.blk.toNat

/-- The schedule of the present block (R160, R161). -/
def blockSchedule (s : State) : Vector Word 64 := schedule (blockOf (pad (message s)) s.blk.toNat)

/-- What the registers hold at each point of a computation, in terms of the SHA-256 functions of the message in the
buffer (R147, R164, R181, R195). -/
def DigestInv (s : State) : Prop :=
  match s.phase with
  | .idle | .error | .pad80 => True
  | .padz | .padl => PaddedTo s s.pp.toNat
  | .ldiv => PaddedTo s s.plen.toNat
  | .ldw | .exp => Chained s ∧ ∀ i, (h : i < 64) → i < s.t.toNat → s.w[i] = (blockSchedule s)[i]
  | .ldv => Chained s ∧ s.w = blockSchedule s
  | .rnd => Chained s ∧ s.w = blockSchedule s ∧ s.v = roundsUpTo s.h s.w s.t.toNat
  | .fold => Chained s ∧ s.w = blockSchedule s ∧ s.v = roundsUpTo s.h s.w 64
  | .done => PaddedTo s s.plen.toNat ∧ s.h = sha256Words (message s)

/-- How many core steps a computation has left before `DONE`; 0 when the core has no step (R203). -/
def stepsLeft (s : State) : Nat :=
  let blocks := s.plen.toNat / 64
  match s.phase with
  | .pad80 => (s.plen.toNat - s.len.toNat) + 1 + 130 * blocks
  | .padz => (s.plen.toNat - s.pp.toNat) + 1 + 130 * blocks
  | .padl => (8 - s.t.toNat) + 1 + 130 * blocks
  | .ldiv => 1 + 130 * blocks
  | .ldw | .exp => 130 * (blocks - s.blk.toNat) - s.t.toNat
  | .ldv => 130 * (blocks - s.blk.toNat) - 64
  | .rnd => 130 * (blocks - s.blk.toNat) - 65 - s.t.toNat
  | .fold => 130 * (blocks - s.blk.toNat) - 129
  | .idle | .done | .error => 0

/-- The commands the acceptance table refuses in a phase, `IF_PHASE` (R223, R243). -/
def refusedInPhase (i : Instr) (p : Phase) : Prop :=
  match i with
  | .clr _ => busy p = true
  | .push _ => p ≠ .idle
  | .start _ => p ≠ .idle
  | .rdw _ => p ≠ .done
  | .rdb _ => p ≠ .done
  | .rdx _ => p ≠ .done
  | .nop _ | .rds _ => False
  | .pad80 | .padz | .padl | .ldiv | .ldw | .exp | .ldv | .rnd | .fold => False

/-- The transition table of the sequencer (R199): the `PHASE`, `T` and `BLK` after one core step in a busy phase. -/
inductive SeqStep (s : State) : Phase → Nat → Nat → Prop
  | pad80Zeros : s.phase = .pad80 → s.len.toNat + 1 + 8 < s.plen.toNat → SeqStep s .padz 0 s.blk.toNat
  | pad80NoZeros : s.phase = .pad80 → s.len.toNat + 1 + 8 = s.plen.toNat → SeqStep s .padl 0 s.blk.toNat
  | padzMore : s.phase = .padz → s.pp.toNat + 1 + 8 < s.plen.toNat → SeqStep s .padz 0 s.blk.toNat
  | padzLast : s.phase = .padz → s.pp.toNat + 1 + 8 = s.plen.toNat → SeqStep s .padl 0 s.blk.toNat
  | padlMore : s.phase = .padl → s.t.toNat < 7 → SeqStep s .padl (s.t.toNat + 1) s.blk.toNat
  | padlLast : s.phase = .padl → s.t.toNat = 7 → SeqStep s .ldiv 0 s.blk.toNat
  | ldiv : s.phase = .ldiv → SeqStep s .ldw 0 0
  | ldwMore : s.phase = .ldw → s.t.toNat < 15 → SeqStep s .ldw (s.t.toNat + 1) s.blk.toNat
  | ldwLast : s.phase = .ldw → s.t.toNat = 15 → SeqStep s .exp 16 s.blk.toNat
  | expMore : s.phase = .exp → s.t.toNat < 63 → SeqStep s .exp (s.t.toNat + 1) s.blk.toNat
  | expLast : s.phase = .exp → s.t.toNat = 63 → SeqStep s .ldv 0 s.blk.toNat
  | ldv : s.phase = .ldv → SeqStep s .rnd 0 s.blk.toNat
  | rndMore : s.phase = .rnd → s.t.toNat < 63 → SeqStep s .rnd (s.t.toNat + 1) s.blk.toNat
  | rndLast : s.phase = .rnd → s.t.toNat = 63 → SeqStep s .fold 0 s.blk.toNat
  | foldMore : s.phase = .fold → s.blk.toNat + 1 < s.plen.toNat / 64 → SeqStep s .ldw 0 (s.blk.toNat + 1)
  | foldLast : s.phase = .fold → s.blk.toNat + 1 = s.plen.toNat / 64 → SeqStep s .done 0 (s.blk.toNat + 1)

end Sys2Proof.Machine
end

