-- ==== Sys2Proof/Certificates/Slice0/Obligations.lean ====
section
/-! DEFINITION. The statements for the provers. Each docstring names the rule of spec/ the statement formalises. A
statement about a free value or about a register the spec leaves unspecified after reset rests on no value of it. -/

open Sys2Proof Sys2Proof.Machine

/-! ## Encoding -/

/-- Decoding an encoded well-formed operation gives it back, every operand at every legal value (R90, R93, R94, R99). -/
def Obligations.DecodeOfEncode : Prop :=
  ∀ i : Instr, i.WellFormed → decode (encode i) = .ok i

/-- A code that decodes is the encoding of what it decodes to, which is well formed (R97). -/
def Obligations.EncodeOfDecode : Prop :=
  ∀ (c : Code) (i : Instr), decode c = .ok i → encode i = c ∧ i.WellFormed

/-- R96, R97, R98: what every one of the 65536 command words decodes to. -/
def Obligations.CommandWordsClassified : Prop :=
  ∀ (op imm : Byte),
    (8 ≤ op.toNat → decodeCommand (op ++ imm) = .error .reservedOpcode) ∧
    (op = 0x00#8 → decodeCommand (op ++ imm) = if imm = 0#8 then .ok (.nop imm) else .error .operandRange) ∧
    (op = 0x01#8 → decodeCommand (op ++ imm) = if imm = 0#8 then .ok (.clr imm) else .error .operandRange) ∧
    (op = 0x02#8 → decodeCommand (op ++ imm) = .ok (.push imm)) ∧
    (op = 0x03#8 → decodeCommand (op ++ imm) = if imm = 0#8 then .ok (.start imm) else .error .operandRange) ∧
    (op = 0x04#8 → decodeCommand (op ++ imm) = if imm.toNat ≤ 7 then .ok (.rdw imm) else .error .operandRange) ∧
    (op = 0x05#8 → decodeCommand (op ++ imm) = if imm.toNat ≤ 31 then .ok (.rdb imm) else .error .operandRange) ∧
    (op = 0x06#8 → decodeCommand (op ++ imm) = if imm.toNat ≤ 63 then .ok (.rdx imm) else .error .operandRange) ∧
    (op = 0x07#8 → decodeCommand (op ++ imm) = if imm = 0#8 then .ok (.rds imm) else .error .operandRange)

/-- A few words of 95_test_vectors.md section 8.1 and of R99, read as the opcode table numbers them. -/
def Obligations.SampleWordsDecode : Prop :=
  decodeTableWord 16 0x0261 = some (.push 0x61#8) ∧ decodeTableWord 16 0x0407 = some (.rdw 7#8) ∧
  decodeTableWord 16 0x063F = some (.rdx 63#8) ∧ decodeTableWord 16 0x0408 = none ∧
  decodeTableWord 16 0x0800 = none ∧ decodeTableWord 8 1 = some .pad80 ∧ decodeTableWord 8 5 = some .ldw ∧
  decodeTableWord 8 9 = some .fold ∧ decodeTableWord 8 12 = none

/-- R99 and R100: the micro-operation each of the sixteen values of `PHASE` selects, if any. -/
def Obligations.PhaseSelectsMicroOperation : Prop :=
  decodePhase 1#4 = .ok .pad80 ∧ decodePhase 2#4 = .ok .padz ∧ decodePhase 3#4 = .ok .padl ∧
  decodePhase 4#4 = .ok .ldiv ∧ decodePhase 5#4 = .ok .ldw ∧ decodePhase 6#4 = .ok .exp ∧
  decodePhase 7#4 = .ok .ldv ∧ decodePhase 8#4 = .ok .rnd ∧ decodePhase 9#4 = .ok .fold ∧
  decodePhase 0#4 = .error .noStep ∧ decodePhase 10#4 = .error .noStep ∧ decodePhase 11#4 = .error .noStep ∧
  (∀ p : BitVec 4, 12 ≤ p.toNat → decodePhase p = .error .reservedPhase) ∧
  ∀ p : Phase, phaseOfCode (phaseCode p) = some p

/-! ## Arithmetic and functions -/

/-- R122 and R123: rotation and logical shift, by their formulas and bit by bit. -/
def Obligations.RotationAndShift : Prop :=
  ∀ (x : Word) (n : Nat),
    (1 ≤ n → n ≤ 31 →
      (rotr x n).toNat = x.toNat / 2 ^ n + (x.toNat % 2 ^ n) * 2 ^ (32 - n) ∧
      ∀ i, i < 32 → (rotr x n).getLsbD i = x.getLsbD ((i + n) % 32)) ∧
    (shr x n).toNat = x.toNat / 2 ^ n

/-- R125 to R131: the six SHA-256 functions, choice and majority bit by bit as well; words, bytes and nibbles. -/
def Obligations.BitwiseFunctionsAndBytes : Prop :=
  (∀ x : Word, s0 x = rotr x 7 ^^^ rotr x 18 ^^^ shr x 3 ∧ s1 x = rotr x 17 ^^^ rotr x 19 ^^^ shr x 10 ∧
    S0 x = rotr x 2 ^^^ rotr x 13 ^^^ rotr x 22 ∧ S1 x = rotr x 6 ^^^ rotr x 11 ^^^ rotr x 25) ∧
  (∀ e f g : Word, ch e f g = (e &&& f) ^^^ (~~~e &&& g) ∧ maj e f g = (e &&& f) ^^^ (e &&& g) ^^^ (f &&& g)) ∧
  (∀ (e f g : Word) (i : Nat), (ch e f g).getLsbD i = if e.getLsbD i then f.getLsbD i else g.getLsbD i) ∧
  (∀ (a b c : Word) (i : Nat), (maj a b c).getLsbD i =
    ((a.getLsbD i && b.getLsbD i) || (a.getLsbD i && c.getLsbD i) || (b.getLsbD i && c.getLsbD i))) ∧
  (∀ b0 b1 b2 b3 : Byte, (be32 b0 b1 b2 b3).toNat =
      b0.toNat * 2 ^ 24 + b1.toNat * 2 ^ 16 + b2.toNat * 2 ^ 8 + b3.toNat ∧
    byteOfWord (be32 b0 b1 b2 b3) 0 = b0 ∧ byteOfWord (be32 b0 b1 b2 b3) 1 = b1 ∧
    byteOfWord (be32 b0 b1 b2 b3) 2 = b2 ∧ byteOfWord (be32 b0 b1 b2 b3) 3 = b3) ∧
  (∀ (x : Word) (k : Nat), k ≤ 3 → (byteOfWord x k).toNat = x.toNat / 2 ^ (8 * (3 - k)) % 256) ∧
  (∀ (x : Word) (k : Nat), k ≤ 7 → (nibbleOfWord x k).toNat = x.toNat / 2 ^ (4 * (7 - k)) % 16)

/-- R132, R140, R142, R146: the padded length, its closed forms, and when it fits the buffer. -/
def Obligations.PaddedLengthAndCapacity : Prop :=
  ∀ L : Nat,
    plenOf L = 64 * ((L + 72) / 64) ∧ plenOf L % 64 = 0 ∧ L + 9 ≤ plenOf L ∧ plenOf L - L - 9 ≤ 63 ∧
    (L % 64 ≤ 55 → plenOf L = L - L % 64 + 64 ∧ plenOf L / 64 = L / 64 + 1) ∧
    (56 ≤ L % 64 → plenOf L = L - L % 64 + 128 ∧ plenOf L / 64 = L / 64 + 2) ∧
    ∀ cap, Config.CapLegal cap → (plenOf L ≤ cap ↔ L + 9 ≤ cap)

/-- R141: the padded message has the padded length, and each of its bytes is the one the rule's table gives. -/
def Obligations.PaddingByteByByte : Prop :=
  ∀ M : List Byte, (pad M).length = plenOf M.length ∧
    ∀ x, x < plenOf M.length → (pad M)[x]? = some (padByte M x)

/-- R160 and R161: the first sixteen schedule words are the block's, every later one satisfies the recurrence. -/
def Obligations.ScheduleRecurrence : Prop :=
  ∀ B : Block,
    (∀ i, (h : i < 16) → (schedule B)[i] = be32 B[4 * i] B[4 * i + 1] B[4 * i + 2] B[4 * i + 3]) ∧
    ∀ i, (h : i < 64) → 16 ≤ i →
      (schedule B)[i] = (schedule B)[i - 16] + s0 (schedule B)[i - 15] + (schedule B)[i - 7] + s1 (schedule B)[i - 2]

/-! ## Commands -/

/-- R215. -/
def Obligations.NopAnswersOk : Prop :=
  ∀ (imm : Byte) (s : State),
    (imm = 0#8 → exec (.nop imm) s = .next { s with responses := s.responses ++ [⟨.ok, 0#32⟩] }) ∧
    (imm ≠ 0#8 → exec (.nop imm) s = .next { s with responses := s.responses ++ [⟨.errIf, 2#32⟩] })

/-- R216: the effect, the two refusals, and that `H`, `V`, `W` and `MB` are kept. -/
def Obligations.ClrBeginsFreshCall : Prop :=
  ∀ (imm : Byte) (s : State),
    (imm = 0#8 → busy s.phase = false → exec (.clr imm) s = .next { s with
      len := 0#64, plen := 0#64, pp := 0#64, blk := 0#64, t := 0#6, ecode := .none, phase := .idle,
      responses := s.responses ++ [⟨.ok, 0#32⟩] }) ∧
    (imm = 0#8 → busy s.phase = true →
      exec (.clr imm) s = .next { s with responses := s.responses ++ [⟨.errIf, 3#32⟩] }) ∧
    (imm ≠ 0#8 → exec (.clr imm) s = .next { s with responses := s.responses ++ [⟨.errIf, 2#32⟩] })

/-- R217: a byte appended, the resource error of a full buffer, the refusal outside `IDLE`. -/
def Obligations.PushAppendsByte : Prop :=
  ∀ (b : Byte) (s : State),
    (s.phase = .idle → s.len.toNat < s.cap → ∃ t, exec (.push b) s = .next t ∧
      t = { s with mb := t.mb, len := s.len + 1#64, responses := s.responses ++ [⟨.ok, 0#32⟩] } ∧
      (∀ x, mbGet t.mb x = if x = s.len.toNat then some b else mbGet s.mb x) ∧
      (Config.CapLegal s.cap → t.len.toNat = s.len.toNat + 1)) ∧
    (s.phase = .idle → s.len.toNat = s.cap → exec (.push b) s = .next { s with
      phase := .error, ecode := .pushFull, responses := s.responses ++ [⟨.errRes, 1#32⟩] }) ∧
    (s.phase ≠ .idle → exec (.push b) s = .next { s with responses := s.responses ++ [⟨.errIf, 3#32⟩] })

/-- R218: the lengths latched and the first micro-operation selected, the resource error, the two refusals. -/
def Obligations.StartLatchesLengths : Prop :=
  ∀ (imm : Byte) (s : State),
    (imm = 0#8 → s.phase = .idle → 64 * ((s.len.toNat + 9 + 63) / 64) ≤ s.cap →
      ∃ t, exec (.start imm) s = .next t ∧
        t = { s with plen := t.plen, pp := s.len, blk := 0#64, t := 0#6, phase := .pad80,
                     responses := s.responses ++ [⟨.ok, 0#32⟩] } ∧
        (Config.CapLegal s.cap → t.plen.toNat = 64 * ((s.len.toNat + 9 + 63) / 64))) ∧
    (imm = 0#8 → s.phase = .idle → s.cap < 64 * ((s.len.toNat + 9 + 63) / 64) →
      exec (.start imm) s = .next { s with
        phase := .error, ecode := .startCap, responses := s.responses ++ [⟨.errRes, 2#32⟩] }) ∧
    (imm = 0#8 → s.phase ≠ .idle →
      exec (.start imm) s = .next { s with responses := s.responses ++ [⟨.errIf, 3#32⟩] }) ∧
    (imm ≠ 0#8 → exec (.start imm) s = .next { s with responses := s.responses ++ [⟨.errIf, 2#32⟩] })

/-- R219. -/
def Obligations.RdwReturnsDigestWord : Prop :=
  ∀ (i : Byte) (s : State),
    (∀ h : i.toNat < 8, s.phase = .done →
      exec (.rdw i) s = .next { s with responses := s.responses ++ [⟨.ok, s.h[i.toNat]⟩] }) ∧
    (i.toNat ≤ 7 → s.phase ≠ .done →
      exec (.rdw i) s = .next { s with responses := s.responses ++ [⟨.errIf, 3#32⟩] }) ∧
    (7 < i.toNat → exec (.rdw i) s = .next { s with responses := s.responses ++ [⟨.errIf, 2#32⟩] })

/-- R220 (and R196): the byte is `floor(H[j div 4] / 2^(8 * (3 - j mod 4))) mod 256`, zero-extended. -/
def Obligations.RdbReturnsDigestByte : Prop :=
  ∀ (j : Byte) (s : State),
    (∀ h : j.toNat < 32, s.phase = .done → ∃ d : Word,
      exec (.rdb j) s = .next { s with responses := s.responses ++ [⟨.ok, d⟩] } ∧
      d.toNat = s.h[j.toNat / 4].toNat / 2 ^ (8 * (3 - j.toNat % 4)) % 256) ∧
    (j.toNat ≤ 31 → s.phase ≠ .done →
      exec (.rdb j) s = .next { s with responses := s.responses ++ [⟨.errIf, 3#32⟩] }) ∧
    (31 < j.toNat → exec (.rdb j) s = .next { s with responses := s.responses ++ [⟨.errIf, 2#32⟩] })

/-- R221 and R197: the code of the hexadecimal digit of nibble `j mod 8` of `H[j div 8]`. The spec marks the codes as
general knowledge (entry 12, PRESUMED). -/
def Obligations.RdxReturnsHexCharacter : Prop :=
  ∀ (j : Byte) (s : State),
    (∀ h : j.toNat < 64, s.phase = .done → ∃ (d : Word) (n : Nat),
      exec (.rdx j) s = .next { s with responses := s.responses ++ [⟨.ok, d⟩] } ∧
      n = s.h[j.toNat / 8].toNat / 2 ^ (4 * (7 - j.toNat % 8)) % 16 ∧
      d.toNat = if n < 10 then 0x30 + n else 0x57 + n) ∧
    (j.toNat ≤ 63 → s.phase ≠ .done →
      exec (.rdx j) s = .next { s with responses := s.responses ++ [⟨.errIf, 3#32⟩] }) ∧
    (63 < j.toNat → exec (.rdx j) s = .next { s with responses := s.responses ++ [⟨.errIf, 2#32⟩] })

/-- R222 and R40: the status word field by field, and, where `ECODE` is set exactly in `ERROR` (R37), the only five
values it takes. -/
def Obligations.RdsReturnsStatus : Prop :=
  ∀ (imm : Byte) (s : State),
    (imm ≠ 0#8 → exec (.rds imm) s = .next { s with responses := s.responses ++ [⟨.errIf, 2#32⟩] }) ∧
    (imm = 0#8 → ∃ d : Word, exec (.rds imm) s = .next { s with responses := s.responses ++ [⟨.ok, d⟩] } ∧
      d.toNat = (if s.phase = .idle then 1 else 0)
        + (if s.phase ≠ .idle ∧ s.phase ≠ .done ∧ s.phase ≠ .error then 2 else 0)
        + (if s.phase = .done then 4 else 0) + (if s.phase = .error then 8 else 0)
        + 16 * (match s.ecode with | .none => 0 | .pushFull => 1 | .startCap => 2) ∧
      ((s.ecode ≠ .none ↔ s.phase = .error) →
        d = 0x00000001#32 ∨ d = 0x00000002#32 ∨ d = 0x00000004#32 ∨ d = 0x00000018#32 ∨ d = 0x00000028#32))

/-- R223: the acceptance table. A well-formed command is refused with sub-cause 3 and no effect exactly where the table
says, and otherwise answered with another code; while the core is busy no command changes anything but the responses. -/
def Obligations.AcceptanceByPhase : Prop :=
  ∀ (i : Instr) (s : State), i.isCommand = true → i.WellFormed → s.len.toNat ≤ s.cap →
    (refusedInPhase i s.phase →
      exec i s = .next { s with responses := s.responses ++ [⟨.errIf, 3#32⟩] }) ∧
    (¬refusedInPhase i s.phase → ∃ t r, exec i s = .next t ∧ t.responses = s.responses ++ [r] ∧ r.rc ≠ .errIf) ∧
    (busy s.phase = true → ∃ r, exec i s = .next { s with responses := s.responses ++ [r] })

/-- R98, R241, R246 (check 2): a command with an operand out of range is refused with sub-cause 2 and no effect, in
every phase. -/
def Obligations.IllFormedOperandRefused : Prop :=
  ∀ (i : Instr) (s : State), i.isCommand = true → ¬i.WellFormed →
    exec i s = .next { s with responses := s.responses ++ [⟨.errIf, 2#32⟩] }

/-- R96 and R98, at the port: the two kinds of illegal command word, refused in every state. The word is taken off the
list of moves, which is the model's (entry 5). -/
def Obligations.IllegalWordsRefused : Prop :=
  ∀ (s : State) (cw : CommandWord) (rest : List Move), s.moves = .command cw :: rest →
    (8 ≤ cw.toNat / 256 →
      step s = .next { s with moves := rest, responses := s.responses ++ [⟨.errIf, 1#32⟩] }) ∧
    (((cw.toNat / 256 = 0 ∨ cw.toNat / 256 = 1 ∨ cw.toNat / 256 = 3 ∨ cw.toNat / 256 = 7) ∧ cw.toNat % 256 ≠ 0 ∨
        cw.toNat / 256 = 4 ∧ 7 < cw.toNat % 256 ∨ cw.toNat / 256 = 5 ∧ 31 < cw.toNat % 256 ∨
        cw.toNat / 256 = 6 ∧ 63 < cw.toNat % 256) →
      step s = .next { s with moves := rest, responses := s.responses ++ [⟨.errIf, 2#32⟩] })

/-! ## Micro-operations -/

/-- R143. -/
def Obligations.Pad80WritesMarker : Prop :=
  ∀ s : State, s.len.toNat < s.cap → ∃ t, exec .pad80 s = .next t ∧
    t = { s with mb := t.mb, pp := s.len + 1#64, t := 0#6,
                 phase := if (s.len.toNat : Int) + 1 < s.plen.toNat - 8 then .padz else .padl } ∧
    ∀ x, mbGet t.mb x = if x = s.len.toNat then some 0x80#8 else mbGet s.mb x

/-- R144. -/
def Obligations.PadzWritesZero : Prop :=
  ∀ s : State, s.phase = .padz → s.pp.toNat < s.cap → ∃ t, exec .padz s = .next t ∧
    t = { s with mb := t.mb, pp := s.pp + 1#64,
                 phase := if (s.pp.toNat : Int) + 1 = s.plen.toNat - 8 then .padl else .padz } ∧
    ∀ x, mbGet t.mb x = if x = s.pp.toNat then some 0x00#8 else mbGet s.mb x

/-- R145: byte `T` of the big-endian 64-bit `8 * LEN`, and the next position. -/
def Obligations.PadlWritesTrailerByte : Prop :=
  ∀ s : State, s.phase = .padl → s.t.toNat ≤ 7 → s.pp.toNat < s.cap → ∃ (t : State) (b : Byte),
    exec .padl s = .next t ∧
    t = { s with mb := t.mb, pp := s.pp + 1#64, t := if s.t.toNat = 7 then 0#6 else s.t + 1#6,
                 phase := if s.t.toNat = 7 then .ldiv else .padl } ∧
    b.toNat = (8 * s.len.toNat % 2 ^ 64) / 2 ^ (8 * (7 - s.t.toNat)) % 256 ∧
    ∀ x, mbGet t.mb x = if x = s.pp.toNat then some b else mbGet s.mb x

/-- R145 and R62: eight `PADL` steps amount to one `MemWrite(PP, 8, 8 * LEN)`. -/
def Obligations.EightTrailerStepsAreOneWrite : Prop :=
  ∀ s : State, s.moves = [] → s.phase = .padl → s.t = 0#6 → s.pp.toNat + 8 ≤ s.cap → Config.CapLegal s.cap →
    ∃ t m, runSteps 8 s = .next t ∧ memWrite8 s s.pp.toNat (8#64 * s.len) = .ok m ∧
      t = { s with mb := m, pp := s.pp + 8#64, t := 0#6, phase := .ldiv }

/-- R198, with the eight words of `IV` (R26) written out. The values are general knowledge that the spec's source does
not hold (entry 12, PRESUMED). -/
def Obligations.LdivLoadsConstants : Prop :=
  ∀ s : State, exec .ldiv s = .next { s with
    h := #v[0x6A09E667#32, 0xBB67AE85#32, 0x3C6EF372#32, 0xA54FF53A#32,
            0x510E527F#32, 0x9B05688C#32, 0x1F83D9AB#32, 0x5BE0CD19#32]
    blk := 0#64, t := 0#6, phase := .ldw }

/-- R162 and R61: the big-endian word at `64 * BLK + 4 * T` goes to `W[T]`. -/
def Obligations.LdwLoadsBlockWord : Prop :=
  ∀ (s : State) (b0 b1 b2 b3 : Byte), s.phase = .ldw → s.t.toNat ≤ 15 →
    64 * s.blk.toNat + 4 * s.t.toNat + 4 ≤ s.cap →
    mbGet s.mb (64 * s.blk.toNat + 4 * s.t.toNat) = some b0 →
    mbGet s.mb (64 * s.blk.toNat + 4 * s.t.toNat + 1) = some b1 →
    mbGet s.mb (64 * s.blk.toNat + 4 * s.t.toNat + 2) = some b2 →
    mbGet s.mb (64 * s.blk.toNat + 4 * s.t.toNat + 3) = some b3 →
    ∃ t, exec .ldw s = .next t ∧
      t = { s with w := t.w, t := s.t + 1#6, phase := if s.t.toNat = 15 then .exp else .ldw } ∧
      ∀ i, (h : i < 64) → t.w[i] = if i = s.t.toNat then be32 b0 b1 b2 b3 else s.w[i]

/-- R163. -/
def Obligations.ExpExtendsSchedule : Prop :=
  ∀ s : State, s.phase = .exp → 16 ≤ s.t.toNat → ∃ t, exec .exp s = .next t ∧
    t = { s with w := t.w, t := if s.t.toNat = 63 then 0#6 else s.t + 1#6,
                 phase := if s.t.toNat = 63 then .ldv else .exp } ∧
    ∀ i, (h : i < 64) → t.w[i] =
      if i = s.t.toNat then s.w[i - 16] + s0 s.w[i - 15] + s.w[i - 7] + s1 s.w[i - 2] else s.w[i]

/-- R177. -/
def Obligations.LdvLoadsVariables : Prop :=
  ∀ s : State, exec .ldv s = .next { s with v := s.h, t := 0#6, phase := .rnd }

/-- R176 and R178: one round with `K[T]` and `W[T]`, all eight variables at once, and the 64 words of `K` (R27) written
out. The values of `K` are general knowledge that the spec's source does not hold (entry 12, PRESUMED). -/
def Obligations.RndPerformsRound : Prop :=
  kRom =
    #v[0x428A2F98#32, 0x71374491#32, 0xB5C0FBCF#32, 0xE9B5DBA5#32,
      0x3956C25B#32, 0x59F111F1#32, 0x923F82A4#32, 0xAB1C5ED5#32,
      0xD807AA98#32, 0x12835B01#32, 0x243185BE#32, 0x550C7DC3#32,
      0x72BE5D74#32, 0x80DEB1FE#32, 0x9BDC06A7#32, 0xC19BF174#32] ++
    #v[0xE49B69C1#32, 0xEFBE4786#32, 0x0FC19DC6#32, 0x240CA1CC#32,
      0x2DE92C6F#32, 0x4A7484AA#32, 0x5CB0A9DC#32, 0x76F988DA#32,
      0x983E5152#32, 0xA831C66D#32, 0xB00327C8#32, 0xBF597FC7#32,
      0xC6E00BF3#32, 0xD5A79147#32, 0x06CA6351#32, 0x14292967#32] ++
    #v[0x27B70A85#32, 0x2E1B2138#32, 0x4D2C6DFC#32, 0x53380D13#32,
      0x650A7354#32, 0x766A0ABB#32, 0x81C2C92E#32, 0x92722C85#32,
      0xA2BFE8A1#32, 0xA81A664B#32, 0xC24B8B70#32, 0xC76C51A3#32,
      0xD192E819#32, 0xD6990624#32, 0xF40E3585#32, 0x106AA070#32] ++
    #v[0x19A4C116#32, 0x1E376C08#32, 0x2748774C#32, 0x34B0BCB5#32,
      0x391C0CB3#32, 0x4ED8AA4A#32, 0x5B9CCA4F#32, 0x682E6FF3#32,
      0x748F82EE#32, 0x78A5636F#32, 0x84C87814#32, 0x8CC70208#32,
      0x90BEFFFA#32, 0xA4506CEB#32, 0xBEF9A3F7#32, 0xC67178F2#32] ∧
  ∀ (s : State) (a b c d e f g h t1 t2 : Word), s.phase = .rnd →
    s.v = #v[a, b, c, d, e, f, g, h] →
    t1 = h + (rotr e 6 ^^^ rotr e 11 ^^^ rotr e 25) + ((e &&& f) ^^^ (~~~e &&& g))
      + kRom[s.t.toNat]'s.t.isLt + s.w[s.t.toNat]'s.t.isLt →
    t2 = (rotr a 2 ^^^ rotr a 13 ^^^ rotr a 22) + ((a &&& b) ^^^ (a &&& c) ^^^ (b &&& c)) →
    exec .rnd s = .next { s with
      v := #v[t1 + t2, a, b, c, d + t1, e, f, g]
      t := if s.t.toNat = 63 then 0#6 else s.t + 1#6
      phase := if s.t.toNat = 63 then .fold else .rnd }

/-- R179. -/
def Obligations.FoldAddsAndAdvances : Prop :=
  ∀ s : State, ∃ t, exec .fold s = .next t ∧
    t = { s with h := t.h, blk := s.blk + 1#64, t := 0#6,
                 phase := if 64 * (s.blk.toNat + 1) = s.plen.toNat then .done else .ldw } ∧
    ∀ j, (hj : j < 8) → t.h[j] = s.h[j] + s.v[j]

/-! ## What operations leave unchanged -/

/-- Frame of `NOP`, `RDW`, `RDB`, `RDX` and `RDS`, every operand and phase: only a response is added, and every byte
reads as before (R215, R219 to R222). -/
def Obligations.ReadingCommandsFrame : Prop :=
  ∀ (i : Instr) (s t : State),
    ((∃ imm, i = .nop imm) ∨ (∃ k, i = .rdw k) ∨ (∃ j, i = .rdb j) ∨ (∃ j, i = .rdx j) ∨ (∃ imm, i = .rds imm)) →
    exec i s = .next t →
    t.cap = s.cap ∧ t.h = s.h ∧ t.v = s.v ∧ t.w = s.w ∧ (∀ x, mbGet t.mb x = mbGet s.mb x) ∧ t.len = s.len ∧
    t.plen = s.plen ∧ t.pp = s.pp ∧ t.blk = s.blk ∧ t.t = s.t ∧ t.phase = s.phase ∧ t.ecode = s.ecode ∧
    t.moves = s.moves ∧ t.freeIndex = s.freeIndex

/-- Frame of `CLR` and `START`: no datapath register, no byte of `MB` and no parameter changes; `START` also keeps
`LEN` (R47, R216, R218). -/
def Obligations.ClrAndStartFrame : Prop :=
  ∀ (i : Instr) (imm : Byte) (s t : State), (i = .clr imm ∨ i = .start imm) → exec i s = .next t →
    t.cap = s.cap ∧ t.h = s.h ∧ t.v = s.v ∧ t.w = s.w ∧ (∀ x, mbGet t.mb x = mbGet s.mb x) ∧
    t.moves = s.moves ∧ t.freeIndex = s.freeIndex ∧ (i = .start imm → t.len = s.len)

/-- Frame of `PUSH`: every byte but the one at `LEN`, and every register but `LEN`, `PHASE` and `ECODE` (R217). -/
def Obligations.PushFrame : Prop :=
  ∀ (b : Byte) (s t : State), exec (.push b) s = .next t →
    (∀ x, x ≠ s.len.toNat → mbGet t.mb x = mbGet s.mb x) ∧ t.cap = s.cap ∧ t.h = s.h ∧ t.v = s.v ∧ t.w = s.w ∧
    t.plen = s.plen ∧ t.pp = s.pp ∧ t.blk = s.blk ∧ t.t = s.t ∧ t.moves = s.moves ∧ t.freeIndex = s.freeIndex

/-- Frame of `PAD80`, `PADZ` and `PADL`: every byte but the one stored to, at `LEN` for `PAD80` and at `PP` for the
other two, and every register but `PP`, `T` and `PHASE` (R66, R143 to R145). -/
def Obligations.PaddingFrame : Prop :=
  ∀ (i : Instr) (s t : State), (i = .pad80 ∨ i = .padz ∨ i = .padl) → exec i s = .next t →
    (i = .pad80 → ∀ x, x ≠ s.len.toNat → mbGet t.mb x = mbGet s.mb x) ∧
    (i ≠ .pad80 → ∀ x, x ≠ s.pp.toNat → mbGet t.mb x = mbGet s.mb x) ∧
    t.cap = s.cap ∧ t.h = s.h ∧ t.v = s.v ∧ t.w = s.w ∧ t.len = s.len ∧ t.plen = s.plen ∧ t.blk = s.blk ∧
    t.ecode = s.ecode ∧ t.moves = s.moves ∧ t.responses = s.responses ∧ t.freeIndex = s.freeIndex

/-- Frame of `LDW` and `EXP`: only `W[T]`, `T` and `PHASE` change (R162, R163, R164). -/
def Obligations.ExpanderFrame : Prop :=
  ∀ (i : Instr) (s t : State), (i = .ldw ∨ i = .exp) → exec i s = .next t →
    (∀ k, (h : k < 64) → k ≠ s.t.toNat → t.w[k] = s.w[k]) ∧
    (∀ x, mbGet t.mb x = mbGet s.mb x) ∧ t.cap = s.cap ∧ t.h = s.h ∧ t.v = s.v ∧ t.len = s.len ∧
    t.plen = s.plen ∧ t.pp = s.pp ∧ t.blk = s.blk ∧ t.ecode = s.ecode ∧ t.moves = s.moves ∧
    t.responses = s.responses ∧ t.freeIndex = s.freeIndex

/-- Frame of `LDIV`, `LDV`, `RND` and `FOLD`: `MB`, `W` and the lengths never change; `LDIV` and `FOLD` keep `V`,
`LDV` and `RND` keep `H` and `BLK` (R177 to R179, R181, R198). -/
def Obligations.DigestRegistersFrame : Prop :=
  ∀ (i : Instr) (s t : State), (i = .ldiv ∨ i = .ldv ∨ i = .rnd ∨ i = .fold) → exec i s = .next t →
    (∀ x, mbGet t.mb x = mbGet s.mb x) ∧ t.w = s.w ∧ t.cap = s.cap ∧ t.len = s.len ∧ t.plen = s.plen ∧
    t.pp = s.pp ∧ t.ecode = s.ecode ∧ t.moves = s.moves ∧ t.responses = s.responses ∧ t.freeIndex = s.freeIndex ∧
    ((i = .ldiv ∨ i = .fold) → t.v = s.v) ∧ ((i = .ldv ∨ i = .rnd) → t.h = s.h ∧ t.blk = s.blk)

/-! ## Steps, agents and reset -/

/-- A command move runs the decoded instruction (R91, R97), with the move taken off the model's list of moves (entry 5). -/
def Obligations.StepRunsDecodedCommand : Prop :=
  ∀ (s : State) (cw : CommandWord) (rest : List Move) (i : Instr),
    s.moves = .command cw :: rest → decodeCommand cw = .ok i → step s = exec i { s with moves := rest }

/-- A core move, listed or taken because no move is listed (entry 5), runs the micro-operation `PHASE` selects (R29,
R99); in a phase that selects none the state stays (entry 7, the model's choice). -/
def Obligations.CoreMoveRunsSelectedMicroOp : Prop :=
  ∀ (s : State) (rest : List Move), (s.moves = .core :: rest ∨ (s.moves = [] ∧ rest = [])) →
    (∀ i, decodePhase (phaseCode s.phase) = .ok i → step s = exec i { s with moves := rest }) ∧
    ((∃ i, decodePhase (phaseCode s.phase) = .ok i) ↔ busy s.phase = true) ∧
    (busy s.phase = false → step s = .next { s with moves := rest })

/-- R270: in any state the RESET event puts every control register at its reset value. `CAP`, the host's pending moves
and the responses already given are not the core's and stay (entry 5). Nothing is said of `H`, `V`, `W` and `MB`. -/
def Obligations.ResetEventClearsControl : Prop :=
  ∀ (s : State) (rest : List Move), s.moves = .reset :: rest → ∃ t, step s = .next t ∧
    t.phase = .idle ∧ t.ecode = .none ∧ t.len = 0#64 ∧ t.plen = 0#64 ∧ t.pp = 0#64 ∧ t.blk = 0#64 ∧ t.t = 0#6 ∧
    t.cap = s.cap ∧ t.moves = rest ∧ t.responses = s.responses

/-- R43, R40 and R274: the control registers after reset, `STATUS`, and that nothing happens until a command comes
(the parameter `CAP` at its default, entry 1; no move listed, entry 5). -/
def Obligations.ResetStateValues : Prop :=
  State.reset.phase = .idle ∧ State.reset.ecode = .none ∧ State.reset.len = 0#64 ∧ State.reset.plen = 0#64 ∧
  State.reset.pp = 0#64 ∧ State.reset.blk = 0#64 ∧ State.reset.t = 0#6 ∧ statusWord State.reset = 0x00000001#32 ∧
  Config.CapLegal State.reset.cap ∧ State.reset.mb = [] ∧ step State.reset = .next State.reset

/-! ## Invariants and whole-machine rules -/

/-- The invariant of R44 and R45 holds at reset. -/
def Obligations.CoreInvAtReset : Prop := CoreInv State.reset

/-- R44 and R45: every step, of any agent, keeps the invariant. -/
def Obligations.StepKeepsCoreInv : Prop :=
  ∀ s t : State, CoreInv s → step s = .next t → CoreInv t

/-- R44, R69, R247: in a state that meets the invariant no step faults and none is refused. -/
def Obligations.CoreInvStatesNeverStop : Prop :=
  ∀ s : State, CoreInv s → ∃ t, step s = .next t

/-- The digest invariant holds at reset. -/
def Obligations.DigestInvAtReset : Prop := DigestInv State.reset

/-- R147, R164, R181, R195, one step at a time: with the control invariant, every step keeps what the registers hold in
terms of the SHA-256 functions of the buffered message. -/
def Obligations.StepKeepsDigestInv : Prop :=
  ∀ s t : State, CoreInv s → DigestInv s → step s = .next t → DigestInv t

/-- R254: a digest read that answers in `DONE` returns the SHA-256 of the buffered message, in each of the three forms
(R195 to R197). -/
def Obligations.DigestReadsAreSha256 : Prop :=
  ∀ s : State, CoreInv s → DigestInv s → s.phase = .done →
    (∀ i : Byte, (h : i.toNat < 8) → exec (.rdw i) s = .next { s with
      responses := s.responses ++ [⟨.ok, (sha256Words (message s))[i.toNat]⟩] }) ∧
    (∀ j : Byte, (h : j.toNat < 32) → exec (.rdb j) s = .next { s with
      responses := s.responses ++ [⟨.ok, (digestByte (sha256Words (message s)) j.toNat h).setWidth 32⟩] }) ∧
    (∀ j : Byte, (h : j.toNat < 64) → exec (.rdx j) s = .next { s with
      responses := s.responses ++ [⟨.ok, (digestHexCode (sha256Words (message s)) j.toNat h).setWidth 32⟩] })

/-- R29, R223: while the core is busy a command move, whatever its word, changes nothing but the list of moves and the
responses. -/
def Obligations.HostCannotDisturbBusyCore : Prop :=
  ∀ (s t : State) (cw : CommandWord) (rest : List Move), s.moves = .command cw :: rest → busy s.phase = true →
    step s = .next t → ∃ r, t = { s with moves := rest, responses := s.responses ++ [r] }

/-- R242, R253: in `ERROR` every move but `CLR` and RESET leaves the core's state as it is, `ECODE` with it. -/
def Obligations.ErrorPhaseIsSticky : Prop :=
  ∀ s t : State, s.phase = .error → (∀ rest, s.moves ≠ .reset :: rest) →
    (∀ rest, s.moves ≠ .command 0x0100#16 :: rest) → step s = .next t →
    t = { s with moves := s.moves.tail, responses := t.responses }

/-- R246: a command move adds exactly one response, any other move none (R92). That a RESET move (R270) keeps the
responses already given is the model's choice (entry 5, DESIGN CHOICE), as is their list (entry 8). -/
def Obligations.OneResponsePerCommand : Prop :=
  ∀ s t : State, step s = .next t →
    (∀ cw rest, s.moves = .command cw :: rest → ∃ r, t.responses = s.responses ++ [r]) ∧
    ((∀ cw rest, s.moves ≠ .command cw :: rest) → t.responses = s.responses)

/-- R225, R21, R22, R24: no command move writes `H`, `V` or `W`. That no move at all changes the parameter `CAP` is how
the model holds R6's argument, as a field (entry 1, DESIGN CHOICE), which a RESET move keeps too (entry 5). -/
def Obligations.CommandsNeverWriteDatapath : Prop :=
  ∀ s t : State, step s = .next t → t.cap = s.cap ∧
    (∀ cw rest, s.moves = .command cw :: rest → t.h = s.h ∧ t.v = s.v ∧ t.w = s.w)

/-- R203: each core step of a computation brings `DONE` one step nearer, and the count is zero exactly when the core
has no step. -/
def Obligations.CoreStepsCountDown : Prop :=
  ∀ s : State, CoreInv s → (stepsLeft s = 0 ↔ busy s.phase = false) ∧
    (s.moves = [] → busy s.phase = true → ∃ t, step s = .next t ∧ stepsLeft t + 1 = stepsLeft s)

/-- R203: from an accepted `START` the core is busy for exactly `(P - L) + 1 + 130 * (P / 64)` steps and is then in
`DONE`. -/
def Obligations.ComputationTerminates : Prop :=
  ∀ s : State, CoreInv s → s.phase = .idle → s.moves = [.command 0x0300#16] → plenOf s.len.toNat ≤ s.cap →
    ∃ t, step s = .next t ∧ t.phase = .pad80 ∧
      (∀ n, n < (plenOf s.len.toNat - s.len.toNat) + 1 + 130 * (plenOf s.len.toNat / 64) →
        ∃ u, runSteps n t = .next u ∧ busy u.phase = true) ∧
      ∃ u, runSteps ((plenOf s.len.toNat - s.len.toNat) + 1 + 130 * (plenOf s.len.toNat / 64)) t = .next u ∧
        u.phase = .done

/-- R199: the transition table. A core step from a busy phase moves the sequencer as the table says; a command move
moves it only for an accepted `START`, a `START` or `PUSH` that raises a resource error, and an accepted `CLR`. -/
def Obligations.SequencerTransitions : Prop :=
  ∀ s t : State, CoreInv s → step s = .next t →
    ((s.moves = [] ∨ ∃ rest, s.moves = .core :: rest) → busy s.phase = true →
      SeqStep s t.phase t.t.toNat t.blk.toNat) ∧
    ((s.moves = [] ∨ ∃ rest, s.moves = .core :: rest) → busy s.phase = false →
      t.phase = s.phase ∧ t.t = s.t ∧ t.blk = s.blk) ∧
    (∀ cw rest, s.moves = .command cw :: rest →
      (t.phase = s.phase ∧ t.t = s.t ∧ t.blk = s.blk) ∨
      (cw = 0x0300#16 ∧ plenOf s.len.toNat ≤ s.cap ∧ s.phase = .idle ∧ t.phase = .pad80 ∧ t.t = 0#6 ∧ t.blk = 0#64) ∨
      (((cw = 0x0300#16 ∧ s.cap < plenOf s.len.toNat) ∨ (cw.toNat / 256 = 2 ∧ s.len.toNat = s.cap)) ∧
        s.phase = .idle ∧ t.phase = .error ∧ t.t = s.t ∧ t.blk = s.blk) ∨
      (cw = 0x0100#16 ∧ busy s.phase = false ∧ t.phase = .idle ∧ t.t = 0#6 ∧ t.blk = 0#64))

/-! ## The units against the functions -/

/-- R147: after an accepted `START` on the message `M`, the `P - L` padding steps leave `pad(M)` in the buffer. -/
def Obligations.PadderCorrect : Prop :=
  ∀ (s : State) (M : List Byte), Config.CapLegal s.cap → s.phase = .idle → s.moves = [.command 0x0300#16] →
    s.len.toNat = M.length → plenOf M.length ≤ s.cap → (∀ x, x < M.length → mbGet s.mb x = M[x]?) →
    ∃ t, runSteps (1 + (plenOf M.length - M.length)) s = .next t ∧ t.phase = .ldiv ∧
      t.pp.toNat = plenOf M.length ∧ t.plen.toNat = plenOf M.length ∧
      ∀ x, x < plenOf M.length → mbGet t.mb x = (pad M)[x]?

/-- R164: sixteen `LDW` and forty-eight `EXP` leave the schedule of the block in `W`, and `MB`, `H` and `V` as they
were. -/
def Obligations.ExpanderCorrect : Prop :=
  ∀ (s : State) (B : Block), s.moves = [] → s.phase = .ldw → s.t = 0#6 → 64 * s.blk.toNat + 64 ≤ s.cap →
    (∀ i, (h : i < 64) → mbGet s.mb (64 * s.blk.toNat + i) = some B[i]) →
    runSteps 64 s = .next { s with w := schedule B, t := 0#6, phase := .ldv }

/-- R181: one `LDV`, sixty-four `RND` and one `FOLD` fold the schedule in `W` into the hash state; `MB` and `W` are as
they were. -/
def Obligations.EngineCorrect : Prop :=
  ∀ s : State, s.moves = [] → s.phase = .ldv → ∃ t, runSteps 66 s = .next t ∧
    t = { s with h := compress s.h s.w, v := t.v, blk := s.blk + 1#64, t := 0#6,
                 phase := if 64 * (s.blk.toNat + 1) = s.plen.toNat then .done else .ldw }

/-- R204 and R10: from any state that meets the invariant and is not busy, the commands of a call on `M`, with turns of
the core anywhere between them, are all answered `(OK, 0)` and the core then reaches `DONE`, after exactly the steps of
R203, with the SHA-256 of `M` in `H`. A message that does not fit ends in `ERROR`. -/
def Obligations.HashCallEndToEnd : Prop :=
  ∀ (s : State) (M : List Byte) (ms : List Move), CoreInv s → busy s.phase = false →
    s.moves = ms ++ [.command 0x0300#16] → s.moves.filter (· ≠ Move.core) = (callWords M).map Move.command →
    (M.length + 9 ≤ s.cap →
      ∃ t u, runSteps (ms.length + 1) s = .next t ∧ t.moves = [] ∧
        t.responses = s.responses ++ List.replicate (M.length + 2) ⟨.ok, 0#32⟩ ∧
        runSteps ((plenOf M.length - M.length) + 1 + 130 * (plenOf M.length / 64)) t = .next u ∧
        u.phase = .done ∧ u.h = sha256Words M ∧ (∀ x, x < plenOf M.length → mbGet u.mb x = (pad M)[x]?) ∧
        u.len.toNat = M.length ∧ u.plen.toNat = plenOf M.length ∧ 64 * u.blk.toNat = plenOf M.length ∧
        u.responses = t.responses) ∧
    (s.cap < M.length + 9 → ∃ t, runSteps (ms.length + 1) s = .next t ∧ t.phase = .error)

/-- Where the model stops, all outside what a run reaches (entries 3, 9, 13): an address outside `[0, CAP)`, a byte
nothing has written, `T` outside its micro-operation's range. -/
def Obligations.StopsOutsideTheRules : Prop :=
  ∀ s : State,
    (s.cap ≤ s.len.toNat → exec .pad80 s = .fault (.mbOutOfRange s.len.toNat)) ∧
    (s.cap ≤ s.pp.toNat → exec .padz s = .fault (.mbOutOfRange s.pp.toNat)) ∧
    (7 < s.t.toNat → exec .padl s = .fault (.stepCounterOutOfRange s.t)) ∧
    (15 < s.t.toNat → exec .ldw s = .fault (.stepCounterOutOfRange s.t)) ∧
    (s.t.toNat < 16 → exec .exp s = .fault (.stepCounterOutOfRange s.t)) ∧
    (s.t.toNat ≤ 15 → 64 * s.blk.toNat + 4 * s.t.toNat + 4 ≤ s.cap →
      mbGet s.mb (64 * s.blk.toNat + 4 * s.t.toNat) = none →
      exec .ldw s = .fault (.mbUnwritten (64 * s.blk.toNat + 4 * s.t.toNat)))

/-- R288, R10 and R204: a run that is a call `digest(M)` ends well when the message fits and the core gets its steps
before the reads, which then answer the eight words of the SHA-256 of `M`; and a run that ended well, however commands,
polls and core turns were interleaved, has the SHA-256 of `M` in `H`. The list of moves and the list of responses are
the model's (entries 5 and 8). -/
def Obligations.CallEndsWell : Prop :=
  ∀ (s : State) (M : List Byte), CoreInv s → busy s.phase = false →
    (∀ (ms rs : List Move) (k : Nat), M.length + 9 ≤ s.cap →
      s.moves = ms ++ .command 0x0300#16 :: (List.replicate k Move.core ++ rs) →
      (plenOf M.length - M.length) + 1 + 130 * (plenOf M.length / 64) ≤ k →
      ms.filter (· ≠ Move.core) = (0x0100#16 :: pushsWords M).map Move.command →
      rs.filter (· ≠ Move.core) = rdigestWords.map Move.command →
      ∃ u, runSteps s.moves.length s = .next u ∧ EndedWell M s u ∧
        u.responses = s.responses ++ List.replicate (M.length + 2) ⟨.ok, 0#32⟩ ++
          (sha256Words M).toList.map fun x => ⟨.ok, x⟩) ∧
    (∀ u, EndedWell M s u → u.h = sha256Words M)
end

