-- ==== Sys2Proof/Laws/Decode.lean ====
section
/-! SUPPORT. The fields of a command word, and what a decoded command word is. -/

namespace Sys2Proof

theorem opField_append (op imm : Byte) : opField (op ++ imm) = op := by
  apply BitVec.eq_of_getLsbD_eq
  intro i hi
  have h := BitVec.getLsbD_append (x := op) (y := imm) (i := 8 + i)
  rw [if_neg (by omega), Nat.add_sub_cancel_left] at h
  rw [← h, opField, BitVec.getLsbD_extractLsb']
  simp only [hi, decide_true, Bool.true_and]

theorem immField_append (op imm : Byte) : immField (op ++ imm) = imm := by
  apply BitVec.eq_of_getLsbD_eq
  intro i hi
  have h := BitVec.getLsbD_append (x := op) (y := imm) (i := i)
  rw [if_pos hi] at h
  rw [← h, immField, BitVec.getLsbD_extractLsb']
  simp only [hi, decide_true, Bool.true_and, Nat.zero_add]

/-- A command word is its two fields. -/
theorem commandWord_fields (cw : CommandWord) : commandWord (opField cw) (immField cw) = cw := by
  apply BitVec.eq_of_getLsbD_eq
  intro i hi
  refine (BitVec.getLsbD_append (x := opField cw) (y := immField cw) (i := i)).trans ?_
  split
  · rw [immField, BitVec.getLsbD_extractLsb']; simp_all
  · rw [opField, BitVec.getLsbD_extractLsb', show 8 + (i - 8) = i by omega]; simp; omega

/-- A word that decodes decodes to the command its opcode names, with its operand. -/
theorem commandOf_of_decodeCommand {cw : CommandWord} {i : Instr} (h : decodeCommand cw = .ok i) :
    commandOf (opField cw) (immField cw) = some i := by
  unfold decodeCommand at h
  split at h
  · cases h
  · split at h
    · cases h; assumption
    · cases h

theorem commandOf_isCommand {op imm : Byte} {i : Instr} (h : commandOf op imm = some i) : i.isCommand = true := by
  simp only [commandOf] at h
  split at h <;> first | (cases h; rfl) | cases h

/-- The command decoder gives commands only. -/
theorem decodeCommand_isCommand {cw : CommandWord} {i : Instr} (h : decodeCommand cw = .ok i) :
    i.isCommand = true :=
  commandOf_isCommand (commandOf_of_decodeCommand h)

end Sys2Proof
end

