-- ==== Sys2Proof/Laws/Memory.lean ====
section
/-! SUPPORT. The laws of the message buffer: a read after a write, the canonical form and the bounds every write keeps,
and what each `MemRead` and `MemWrite` can answer. -/

namespace Sys2Proof.Machine

/-- A byte just written is read back. -/
@[simp] theorem mbGet_mbPut_same (m : List Host.Cell) (a : Nat) (b : Byte) :
    mbGet (mbPut m a b) a = some b := by
  induction m with
  | nil => simp [mbPut, mbGet]
  | cons c rest ih =>
    simp only [mbPut]
    split
    · simp [mbGet]
    · split
      · simp [mbGet]
      · rename_i h
        simp [mbGet, h, ih]

/-- A write leaves every other address as it was. -/
theorem mbGet_mbPut_other (m : List Host.Cell) {a x : Nat} (b : Byte) (hx : x ≠ a) :
    mbGet (mbPut m a b) x = mbGet m x := by
  induction m with
  | nil => simp [mbPut, mbGet, Ne.symm hx]
  | cons c rest ih =>
    simp only [mbPut]
    split
    · simp [mbGet, Ne.symm hx]
    · split
      · rename_i h
        simp [mbGet, h, Ne.symm hx]
      · simp [mbGet, ih]

/-- A read after a write, both cases at once. -/
theorem mbGet_mbPut (m : List Host.Cell) (a x : Nat) (b : Byte) :
    mbGet (mbPut m a b) x = if x = a then some b else mbGet m x := by
  split
  · rename_i h; rw [h, mbGet_mbPut_same]
  · rename_i h; exact mbGet_mbPut_other m b h

/-- The cells after a write: the new one, and some of the old. -/
theorem mem_mbPut {m : List Host.Cell} {a : Nat} {b : Byte} {c : Host.Cell} (h : c ∈ mbPut m a b) :
    c = (a, b) ∨ c ∈ m := by
  induction m with
  | nil => simpa [mbPut] using h
  | cons d rest ih =>
    simp only [mbPut] at h
    split at h
    · simpa using h
    · split at h
      · rcases List.mem_cons.mp h with h | h
        · exact .inl h
        · exact .inr (List.mem_cons_of_mem _ h)
      · rcases List.mem_cons.mp h with h | h
        · exact .inr (h ▸ List.mem_cons_self)
        · rcases ih h with h | h
          · exact .inl h
          · exact .inr (List.mem_cons_of_mem _ h)

/-- A write keeps the canonical form. -/
theorem mbPut_wf {m : List Host.Cell} (hm : Memory.wf m) (a : Nat) (b : Byte) : Memory.wf (mbPut m a b) := by
  induction m with
  | nil => simp [mbPut]
  | cons d rest ih =>
    have hd := List.pairwise_cons.mp hm
    simp only [mbPut]
    split
    · rename_i h
      refine List.pairwise_cons.mpr ⟨fun c hc => ?_, hm⟩
      rcases List.mem_cons.mp hc with rfl | hc
      · exact h
      · exact Nat.lt_trans h (hd.1 c hc)
    · split
      · rename_i h
        exact List.pairwise_cons.mpr ⟨fun c hc => h ▸ hd.1 c hc, hd.2⟩
      · rename_i h1 h2
        refine List.pairwise_cons.mpr ⟨fun c hc => ?_, ih hd.2⟩
        rcases mem_mbPut hc with rfl | hc
        · show d.1 < a
          omega
        · exact hd.1 c hc

/-- A write below a bound keeps every address below it. -/
theorem mbPut_inside {m : List Host.Cell} {cap a : Nat} {b : Byte} (hm : ∀ c ∈ m, c.1 < cap) (ha : a < cap) :
    ∀ c ∈ mbPut m a b, c.1 < cap := by
  intro c hc
  rcases mem_mbPut hc with rfl | hc
  · exact ha
  · exact hm c hc

/-- Writing consecutive bytes keeps the canonical form. -/
theorem mbPutList_wf {m : List Host.Cell} (hm : Memory.wf m) (a : Nat) (bs : List Byte) :
    Memory.wf (mbPutList m a bs) := by
  induction bs generalizing m a with
  | nil => exact hm
  | cons b bs ih => exact ih (mbPut_wf hm a b) (a + 1)

/-- Reading after writing consecutive bytes. -/
theorem mbGet_mbPutList (m : List Host.Cell) (a x : Nat) (bs : List Byte) :
    mbGet (mbPutList m a bs) x = if h : a ≤ x ∧ x < a + bs.length then some (bs[x - a]'(by omega)) else mbGet m x := by
  induction bs generalizing m a with
  | nil =>
    simp [mbPutList]
  | cons b bs ih =>
    simp only [mbPutList]
    rw [ih]
    by_cases hx : x = a
    · subst hx
      simp
    · by_cases h : a ≤ x ∧ x < a + (b :: bs).length
      · have h2 : a + 1 ≤ x ∧ x < a + 1 + bs.length := by
          simp only [List.length_cons] at h; omega
        have e : x - a = (x - (a + 1)) + 1 := by omega
        rw [dif_pos h, dif_pos h2]
        simp [e]
      · have h2 : ¬(a + 1 ≤ x ∧ x < a + 1 + bs.length) := by
          simp only [List.length_cons] at h; omega
        simp only [h2, h, dite_false]
        exact mbGet_mbPut_other m b hx

/-- A byte can be written exactly below `CAP`, and then the buffer is the old one with that byte. -/
theorem memWrite1_ok_iff (s : State) (a : Nat) (b : Byte) (m : List Host.Cell) :
    memWrite1 s a b = .ok m ↔ a < s.cap ∧ m = mbPut s.mb a b := by
  simp only [memWrite1, Nat.succ_le_iff]
  split <;> simp_all [eq_comm]

/-- A byte write below `CAP` succeeds. -/
theorem memWrite1_of_lt {s : State} {a : Nat} (h : a < s.cap) (b : Byte) :
    memWrite1 s a b = .ok (mbPut s.mb a b) := (memWrite1_ok_iff s a b _).mpr ⟨h, rfl⟩

/-- An 8-byte write inside `[0, CAP)` succeeds. -/
theorem memWrite8_of_le {s : State} {a : Nat} (h : a + 8 ≤ s.cap) (v : Count) :
    memWrite8 s a v = .ok (mbPutList s.mb a (beBytes v)) := if_pos h

/-- A byte can be read exactly where one has been written below `CAP`. -/
theorem memRead1_ok_iff (s : State) (a : Nat) (b : Byte) :
    memRead1 s a = .ok b ↔ a < s.cap ∧ mbGet s.mb a = some b := by
  simp only [memRead1, Nat.succ_le_iff]
  split
  · split <;> simp_all
  · simp_all

/-- A word is read exactly where its four bytes have been written below `CAP`, the first most significant. -/
theorem memRead4_ok_iff (s : State) (a : Nat) (x : Word) :
    memRead4 s a = .ok x ↔ a + 4 ≤ s.cap ∧ ∃ b0 b1 b2 b3, mbGet s.mb a = some b0 ∧ mbGet s.mb (a + 1) = some b1 ∧
      mbGet s.mb (a + 2) = some b2 ∧ mbGet s.mb (a + 3) = some b3 ∧ x = be32 b0 b1 b2 b3 := by
  simp only [memRead4]
  split
  · rename_i hcap
    split
    · rename_i h0 h1 h2 h3
      simp [hcap, h0, h1, h2, h3, eq_comm]
    · rename_i hno
      simp only [reduceCtorEq, false_iff, not_and, not_exists]
      intro _ b0 b1 b2 b3 h0 h1 h2 h3
      exact (hno b0 b1 b2 b3 h0 h1 h2 h3).elim
  · simp_all

/-- The memory after reset is canonical: it lists nothing. -/
theorem reset_mb_wf : Memory.wf State.reset.mb := List.Pairwise.nil

end Sys2Proof.Machine
end

