-- ==== Sys2Proof/Laws/State.lean ====
section
/-! SUPPORT. One lemma per field of the state per named update of Ops.lean: a field reads as the update left it. -/

namespace Sys2Proof.Machine

@[simp] theorem respond_cap (rc : RespCode) (data : Word) (s : State) :
    (respond rc data s).cap = s.cap := rfl
@[simp] theorem respond_h (rc : RespCode) (data : Word) (s : State) :
    (respond rc data s).h = s.h := rfl
@[simp] theorem respond_v (rc : RespCode) (data : Word) (s : State) :
    (respond rc data s).v = s.v := rfl
@[simp] theorem respond_w (rc : RespCode) (data : Word) (s : State) :
    (respond rc data s).w = s.w := rfl
@[simp] theorem respond_mb (rc : RespCode) (data : Word) (s : State) :
    (respond rc data s).mb = s.mb := rfl
@[simp] theorem respond_len (rc : RespCode) (data : Word) (s : State) :
    (respond rc data s).len = s.len := rfl
@[simp] theorem respond_plen (rc : RespCode) (data : Word) (s : State) :
    (respond rc data s).plen = s.plen := rfl
@[simp] theorem respond_pp (rc : RespCode) (data : Word) (s : State) :
    (respond rc data s).pp = s.pp := rfl
@[simp] theorem respond_blk (rc : RespCode) (data : Word) (s : State) :
    (respond rc data s).blk = s.blk := rfl
@[simp] theorem respond_t (rc : RespCode) (data : Word) (s : State) :
    (respond rc data s).t = s.t := rfl
@[simp] theorem respond_phase (rc : RespCode) (data : Word) (s : State) :
    (respond rc data s).phase = s.phase := rfl
@[simp] theorem respond_ecode (rc : RespCode) (data : Word) (s : State) :
    (respond rc data s).ecode = s.ecode := rfl
@[simp] theorem respond_moves (rc : RespCode) (data : Word) (s : State) :
    (respond rc data s).moves = s.moves := rfl
@[simp] theorem respond_responses (rc : RespCode) (data : Word) (s : State) :
    (respond rc data s).responses = s.responses ++ [{ rc := rc, data := data }] := rfl
@[simp] theorem respond_freeIndex (rc : RespCode) (data : Word) (s : State) :
    (respond rc data s).freeIndex = s.freeIndex := rfl

@[simp] theorem respondOk_cap (data : Word) (s : State) :
    (respondOk data s).cap = s.cap := rfl
@[simp] theorem respondOk_h (data : Word) (s : State) :
    (respondOk data s).h = s.h := rfl
@[simp] theorem respondOk_v (data : Word) (s : State) :
    (respondOk data s).v = s.v := rfl
@[simp] theorem respondOk_w (data : Word) (s : State) :
    (respondOk data s).w = s.w := rfl
@[simp] theorem respondOk_mb (data : Word) (s : State) :
    (respondOk data s).mb = s.mb := rfl
@[simp] theorem respondOk_len (data : Word) (s : State) :
    (respondOk data s).len = s.len := rfl
@[simp] theorem respondOk_plen (data : Word) (s : State) :
    (respondOk data s).plen = s.plen := rfl
@[simp] theorem respondOk_pp (data : Word) (s : State) :
    (respondOk data s).pp = s.pp := rfl
@[simp] theorem respondOk_blk (data : Word) (s : State) :
    (respondOk data s).blk = s.blk := rfl
@[simp] theorem respondOk_t (data : Word) (s : State) :
    (respondOk data s).t = s.t := rfl
@[simp] theorem respondOk_phase (data : Word) (s : State) :
    (respondOk data s).phase = s.phase := rfl
@[simp] theorem respondOk_ecode (data : Word) (s : State) :
    (respondOk data s).ecode = s.ecode := rfl
@[simp] theorem respondOk_moves (data : Word) (s : State) :
    (respondOk data s).moves = s.moves := rfl
@[simp] theorem respondOk_responses (data : Word) (s : State) :
    (respondOk data s).responses = s.responses ++ [{ rc := .ok, data := data }] := rfl
@[simp] theorem respondOk_freeIndex (data : Word) (s : State) :
    (respondOk data s).freeIndex = s.freeIndex := rfl

@[simp] theorem raiseIf_cap (c : IfCause) (s : State) :
    (raiseIf c s).cap = s.cap := rfl
@[simp] theorem raiseIf_h (c : IfCause) (s : State) :
    (raiseIf c s).h = s.h := rfl
@[simp] theorem raiseIf_v (c : IfCause) (s : State) :
    (raiseIf c s).v = s.v := rfl
@[simp] theorem raiseIf_w (c : IfCause) (s : State) :
    (raiseIf c s).w = s.w := rfl
@[simp] theorem raiseIf_mb (c : IfCause) (s : State) :
    (raiseIf c s).mb = s.mb := rfl
@[simp] theorem raiseIf_len (c : IfCause) (s : State) :
    (raiseIf c s).len = s.len := rfl
@[simp] theorem raiseIf_plen (c : IfCause) (s : State) :
    (raiseIf c s).plen = s.plen := rfl
@[simp] theorem raiseIf_pp (c : IfCause) (s : State) :
    (raiseIf c s).pp = s.pp := rfl
@[simp] theorem raiseIf_blk (c : IfCause) (s : State) :
    (raiseIf c s).blk = s.blk := rfl
@[simp] theorem raiseIf_t (c : IfCause) (s : State) :
    (raiseIf c s).t = s.t := rfl
@[simp] theorem raiseIf_phase (c : IfCause) (s : State) :
    (raiseIf c s).phase = s.phase := rfl
@[simp] theorem raiseIf_ecode (c : IfCause) (s : State) :
    (raiseIf c s).ecode = s.ecode := rfl
@[simp] theorem raiseIf_moves (c : IfCause) (s : State) :
    (raiseIf c s).moves = s.moves := rfl
@[simp] theorem raiseIf_responses (c : IfCause) (s : State) :
    (raiseIf c s).responses = s.responses ++ [{ rc := .errIf, data := ifSub c }] := rfl
@[simp] theorem raiseIf_freeIndex (c : IfCause) (s : State) :
    (raiseIf c s).freeIndex = s.freeIndex := rfl

@[simp] theorem raiseRes_cap (e : ErrorCode) (s : State) :
    (raiseRes e s).cap = s.cap := rfl
@[simp] theorem raiseRes_h (e : ErrorCode) (s : State) :
    (raiseRes e s).h = s.h := rfl
@[simp] theorem raiseRes_v (e : ErrorCode) (s : State) :
    (raiseRes e s).v = s.v := rfl
@[simp] theorem raiseRes_w (e : ErrorCode) (s : State) :
    (raiseRes e s).w = s.w := rfl
@[simp] theorem raiseRes_mb (e : ErrorCode) (s : State) :
    (raiseRes e s).mb = s.mb := rfl
@[simp] theorem raiseRes_len (e : ErrorCode) (s : State) :
    (raiseRes e s).len = s.len := rfl
@[simp] theorem raiseRes_plen (e : ErrorCode) (s : State) :
    (raiseRes e s).plen = s.plen := rfl
@[simp] theorem raiseRes_pp (e : ErrorCode) (s : State) :
    (raiseRes e s).pp = s.pp := rfl
@[simp] theorem raiseRes_blk (e : ErrorCode) (s : State) :
    (raiseRes e s).blk = s.blk := rfl
@[simp] theorem raiseRes_t (e : ErrorCode) (s : State) :
    (raiseRes e s).t = s.t := rfl
@[simp] theorem raiseRes_phase (e : ErrorCode) (s : State) :
    (raiseRes e s).phase = .error := rfl
@[simp] theorem raiseRes_ecode (e : ErrorCode) (s : State) :
    (raiseRes e s).ecode = e := rfl
@[simp] theorem raiseRes_moves (e : ErrorCode) (s : State) :
    (raiseRes e s).moves = s.moves := rfl
@[simp] theorem raiseRes_responses (e : ErrorCode) (s : State) :
    (raiseRes e s).responses = s.responses ++ [{ rc := .errRes, data := (ecodeCode e).setWidth 32 }] := rfl
@[simp] theorem raiseRes_freeIndex (e : ErrorCode) (s : State) :
    (raiseRes e s).freeIndex = s.freeIndex := rfl

@[simp] theorem clearControl_cap (s : State) :
    (clearControl s).cap = s.cap := rfl
@[simp] theorem clearControl_h (s : State) :
    (clearControl s).h = s.h := rfl
@[simp] theorem clearControl_v (s : State) :
    (clearControl s).v = s.v := rfl
@[simp] theorem clearControl_w (s : State) :
    (clearControl s).w = s.w := rfl
@[simp] theorem clearControl_mb (s : State) :
    (clearControl s).mb = s.mb := rfl
@[simp] theorem clearControl_len (s : State) :
    (clearControl s).len = 0#64 := rfl
@[simp] theorem clearControl_plen (s : State) :
    (clearControl s).plen = 0#64 := rfl
@[simp] theorem clearControl_pp (s : State) :
    (clearControl s).pp = 0#64 := rfl
@[simp] theorem clearControl_blk (s : State) :
    (clearControl s).blk = 0#64 := rfl
@[simp] theorem clearControl_t (s : State) :
    (clearControl s).t = 0#6 := rfl
@[simp] theorem clearControl_phase (s : State) :
    (clearControl s).phase = .idle := rfl
@[simp] theorem clearControl_ecode (s : State) :
    (clearControl s).ecode = .none := rfl
@[simp] theorem clearControl_moves (s : State) :
    (clearControl s).moves = s.moves := rfl
@[simp] theorem clearControl_responses (s : State) :
    (clearControl s).responses = s.responses := rfl
@[simp] theorem clearControl_freeIndex (s : State) :
    (clearControl s).freeIndex = s.freeIndex := rfl

@[simp] theorem setSeq_cap (p : Phase) (blk : Count) (t : BitVec 6) (s : State) :
    (setSeq p blk t s).cap = s.cap := rfl
@[simp] theorem setSeq_h (p : Phase) (blk : Count) (t : BitVec 6) (s : State) :
    (setSeq p blk t s).h = s.h := rfl
@[simp] theorem setSeq_v (p : Phase) (blk : Count) (t : BitVec 6) (s : State) :
    (setSeq p blk t s).v = s.v := rfl
@[simp] theorem setSeq_w (p : Phase) (blk : Count) (t : BitVec 6) (s : State) :
    (setSeq p blk t s).w = s.w := rfl
@[simp] theorem setSeq_mb (p : Phase) (blk : Count) (t : BitVec 6) (s : State) :
    (setSeq p blk t s).mb = s.mb := rfl
@[simp] theorem setSeq_len (p : Phase) (blk : Count) (t : BitVec 6) (s : State) :
    (setSeq p blk t s).len = s.len := rfl
@[simp] theorem setSeq_plen (p : Phase) (blk : Count) (t : BitVec 6) (s : State) :
    (setSeq p blk t s).plen = s.plen := rfl
@[simp] theorem setSeq_pp (p : Phase) (blk : Count) (t : BitVec 6) (s : State) :
    (setSeq p blk t s).pp = s.pp := rfl
@[simp] theorem setSeq_blk (p : Phase) (blk : Count) (t : BitVec 6) (s : State) :
    (setSeq p blk t s).blk = blk := rfl
@[simp] theorem setSeq_t (p : Phase) (blk : Count) (t : BitVec 6) (s : State) :
    (setSeq p blk t s).t = t := rfl
@[simp] theorem setSeq_phase (p : Phase) (blk : Count) (t : BitVec 6) (s : State) :
    (setSeq p blk t s).phase = p := rfl
@[simp] theorem setSeq_ecode (p : Phase) (blk : Count) (t : BitVec 6) (s : State) :
    (setSeq p blk t s).ecode = s.ecode := rfl
@[simp] theorem setSeq_moves (p : Phase) (blk : Count) (t : BitVec 6) (s : State) :
    (setSeq p blk t s).moves = s.moves := rfl
@[simp] theorem setSeq_responses (p : Phase) (blk : Count) (t : BitVec 6) (s : State) :
    (setSeq p blk t s).responses = s.responses := rfl
@[simp] theorem setSeq_freeIndex (p : Phase) (blk : Count) (t : BitVec 6) (s : State) :
    (setSeq p blk t s).freeIndex = s.freeIndex := rfl

@[simp] theorem resetCore_cap (s : State) :
    (resetCore s).cap = s.cap := rfl
@[simp] theorem resetCore_h (s : State) :
    (resetCore s).h = freeWords 8 s.freeIndex := rfl
@[simp] theorem resetCore_v (s : State) :
    (resetCore s).v = freeWords 8 (s.freeIndex + 8) := rfl
@[simp] theorem resetCore_w (s : State) :
    (resetCore s).w = freeWords 64 (s.freeIndex + 16) := rfl
@[simp] theorem resetCore_mb (s : State) :
    (resetCore s).mb = [] := rfl
@[simp] theorem resetCore_len (s : State) :
    (resetCore s).len = 0#64 := rfl
@[simp] theorem resetCore_plen (s : State) :
    (resetCore s).plen = 0#64 := rfl
@[simp] theorem resetCore_pp (s : State) :
    (resetCore s).pp = 0#64 := rfl
@[simp] theorem resetCore_blk (s : State) :
    (resetCore s).blk = 0#64 := rfl
@[simp] theorem resetCore_t (s : State) :
    (resetCore s).t = 0#6 := rfl
@[simp] theorem resetCore_phase (s : State) :
    (resetCore s).phase = .idle := rfl
@[simp] theorem resetCore_ecode (s : State) :
    (resetCore s).ecode = .none := rfl
@[simp] theorem resetCore_moves (s : State) :
    (resetCore s).moves = s.moves := rfl
@[simp] theorem resetCore_responses (s : State) :
    (resetCore s).responses = s.responses := rfl
@[simp] theorem resetCore_freeIndex (s : State) :
    (resetCore s).freeIndex = s.freeIndex + 80 := rfl

@[simp] theorem setMoves_cap (l : List Move) (s : State) :
    (setMoves l s).cap = s.cap := rfl
@[simp] theorem setMoves_h (l : List Move) (s : State) :
    (setMoves l s).h = s.h := rfl
@[simp] theorem setMoves_v (l : List Move) (s : State) :
    (setMoves l s).v = s.v := rfl
@[simp] theorem setMoves_w (l : List Move) (s : State) :
    (setMoves l s).w = s.w := rfl
@[simp] theorem setMoves_mb (l : List Move) (s : State) :
    (setMoves l s).mb = s.mb := rfl
@[simp] theorem setMoves_len (l : List Move) (s : State) :
    (setMoves l s).len = s.len := rfl
@[simp] theorem setMoves_plen (l : List Move) (s : State) :
    (setMoves l s).plen = s.plen := rfl
@[simp] theorem setMoves_pp (l : List Move) (s : State) :
    (setMoves l s).pp = s.pp := rfl
@[simp] theorem setMoves_blk (l : List Move) (s : State) :
    (setMoves l s).blk = s.blk := rfl
@[simp] theorem setMoves_t (l : List Move) (s : State) :
    (setMoves l s).t = s.t := rfl
@[simp] theorem setMoves_phase (l : List Move) (s : State) :
    (setMoves l s).phase = s.phase := rfl
@[simp] theorem setMoves_ecode (l : List Move) (s : State) :
    (setMoves l s).ecode = s.ecode := rfl
@[simp] theorem setMoves_moves (l : List Move) (s : State) :
    (setMoves l s).moves = l := rfl
@[simp] theorem setMoves_responses (l : List Move) (s : State) :
    (setMoves l s).responses = s.responses := rfl
@[simp] theorem setMoves_freeIndex (l : List Move) (s : State) :
    (setMoves l s).freeIndex = s.freeIndex := rfl

end Sys2Proof.Machine
end

