-- ==== Sys2Proof/Laws/Ops.lean ====
section
/-! SUPPORT. For each shared operation, once, everything it can do: what its answering a next state says, and the small
lemmas of phases, codes and flags. -/

namespace Sys2Proof.Machine

/-! ## Shared operations -/

/-- Going on after a memory operation answers a next state only through the operation's success. -/
theorem andThen_next {α : Type} {r : Except Fault α} {k : α → Result} {t : State} (h : andThen r k = .next t) :
    ∃ x, r = .ok x ∧ k x = .next t := by
  cases r with
  | ok x => exact ⟨x, rfl, h⟩
  | error f => cases h

/-- Going on after a success. -/
@[simp] theorem andThen_ok {α : Type} (x : α) (k : α → Result) : andThen (.ok x) k = k x := rfl

/-- Stopping with a fault. -/
@[simp] theorem andThen_error {α : Type} (f : Fault) (k : α → Result) : andThen (.error f) k = .fault f := rfl

/-- A micro-operation with a range of `T` answers a next state only inside it. -/
theorem withinSteps_next {s t : State} {lo hi : Nat} {k : Result} (h : withinSteps s lo hi k = .next t) :
    lo ≤ s.t.toNat ∧ s.t.toNat ≤ hi ∧ k = .next t := by
  simp only [withinSteps] at h
  split at h
  · rename_i hr; exact ⟨hr.1, hr.2, h⟩
  · cases h

/-- Inside its range a micro-operation goes on. -/
theorem withinSteps_of {s : State} {lo hi : Nat} (k : Result) (h1 : lo ≤ s.t.toNat) (h2 : s.t.toNat ≤ hi) :
    withinSteps s lo hi k = k := if_pos ⟨h1, h2⟩

/-- What a command can answer next: refused for its operand, refused for the phase, or performed (R246). -/
theorem guarded_next {legal accepted : Bool} {s t : State} {k : Result} (h : guarded legal accepted s k = .next t) :
    (legal = false ∧ t = raiseIf .operand s) ∨ (legal = true ∧ accepted = false ∧ t = raiseIf .phase s) ∨
      (legal = true ∧ accepted = true ∧ k = .next t) := by
  cases legal <;> cases accepted <;> simp_all [guarded, eq_comm]

/-- A legal, accepted command is performed. -/
@[simp] theorem guarded_true (s : State) (k : Result) : guarded true true s k = k := rfl

/-- An operand out of range is refused whatever the phase (R246). -/
@[simp] theorem guarded_illegal (accepted : Bool) (s : State) (k : Result) :
    guarded false accepted s k = .next (raiseIf .operand s) := rfl

/-- A legal command in a phase that does not accept it is refused. -/
@[simp] theorem guarded_unaccepted (s : State) (k : Result) :
    guarded true false s k = .next (raiseIf .phase s) := rfl

/-! ## Phases, codes and flags -/

@[simp] theorem busy_idle : busy .idle = false := rfl
@[simp] theorem busy_pad80 : busy .pad80 = true := rfl
@[simp] theorem busy_padz : busy .padz = true := rfl
@[simp] theorem busy_padl : busy .padl = true := rfl
@[simp] theorem busy_ldiv : busy .ldiv = true := rfl
@[simp] theorem busy_ldw : busy .ldw = true := rfl
@[simp] theorem busy_exp : busy .exp = true := rfl
@[simp] theorem busy_ldv : busy .ldv = true := rfl
@[simp] theorem busy_rnd : busy .rnd = true := rfl
@[simp] theorem busy_fold : busy .fold = true := rfl
@[simp] theorem busy_done : busy .done = false := rfl
@[simp] theorem busy_error : busy .error = false := rfl

/-- The core is not busy exactly in `IDLE`, `DONE` and `ERROR` (R29). -/
theorem busy_eq_false_iff (p : Phase) : busy p = false ↔ p = .idle ∨ p = .done ∨ p = .error := by
  cases p <;> simp

/-- The code of a phase names that phase. -/
@[simp] theorem phaseOfCode_phaseCode (p : Phase) : phaseOfCode (phaseCode p) = some p := by
  cases p <;> rfl

@[simp] theorem flagRdy_eq (s : State) : flagRdy s = decide (s.phase = .idle) := rfl
@[simp] theorem flagBusy_eq (s : State) : flagBusy s = busy s.phase := rfl
@[simp] theorem flagValid_eq (s : State) : flagValid s = decide (s.phase = .done) := rfl
@[simp] theorem flagErr_eq (s : State) : flagErr s = decide (s.phase = .error) := rfl
@[simp] theorem acceptsClr_eq (s : State) : acceptsClr s = !busy s.phase := rfl
@[simp] theorem acceptsLoad_eq (s : State) : acceptsLoad s = decide (s.phase = .idle) := rfl
@[simp] theorem acceptsRead_eq (s : State) : acceptsRead s = decide (s.phase = .done) := rfl

/-- The micro-operation of a busy phase; no other phase has one (R99). -/
def microOpOf (p : Phase) : Option Instr :=
  match p with
  | .idle => none
  | .pad80 => some .pad80
  | .padz => some .padz
  | .padl => some .padl
  | .ldiv => some .ldiv
  | .ldw => some .ldw
  | .exp => some .exp
  | .ldv => some .ldv
  | .rnd => some .rnd
  | .fold => some .fold
  | .done => none
  | .error => none

/-- A core step is the micro-operation of the phase, or nothing (R29). -/
theorem coreStep_eq (s : State) :
    coreStep s = match microOpOf s.phase with
      | some i => exec i s
      | none => .next s := by
  cases h : s.phase <;> simp [coreStep, h, microOpOf, phaseCode, decodePhase]

/-! ## The arithmetic of lengths (R132) -/

/-- The padded length in closed form. -/
theorem plenOf_eq (L : Nat) : plenOf L = 64 * ((L + 72) / 64) := by
  simp only [plenOf, ceilDiv]
  omega

/-- The padded length is a multiple of 64 that holds the message, the marker and the trailer, with less than a block
to spare. -/
theorem plenOf_bounds (L : Nat) : plenOf L % 64 = 0 ∧ L + 9 ≤ plenOf L ∧ plenOf L < L + 73 := by
  rw [plenOf_eq]; omega

/-- The padded length is the only such multiple of 64. -/
theorem eq_plenOf {L P : Nat} (h0 : P % 64 = 0) (h1 : L + 9 ≤ P) (h2 : P < L + 73) : P = plenOf L := by
  rw [plenOf_eq]; omega

end Sys2Proof.Machine
end

