-- ==== Sys2Proof/Laws/Meanings.lean ====
section
/-! SUPPORT. For each operation, once, everything it can do: the cases in which it answers a next state, and that state. -/

namespace Sys2Proof.Machine

/-! ## Commands -/

theorem execNop_next {imm : Byte} {s t : State} (h : execNop imm s = .next t) :
    (imm ≠ 0#8 ∧ t = raiseIf .operand s) ∨ (imm = 0#8 ∧ t = respondOk 0#32 s) := by
  rcases guarded_next h with ⟨h1, h2⟩ | ⟨_, h2, _⟩ | ⟨h1, _, h2⟩
  · exact .inl ⟨of_decide_eq_false h1, h2⟩
  · cases h2
  · exact .inr ⟨of_decide_eq_true h1, (Host.Outcome.next.inj h2).symm⟩

theorem execClr_next {imm : Byte} {s t : State} (h : execClr imm s = .next t) :
    (imm ≠ 0#8 ∧ t = raiseIf .operand s) ∨ (imm = 0#8 ∧ busy s.phase = true ∧ t = raiseIf .phase s) ∨
      (imm = 0#8 ∧ busy s.phase = false ∧ t = respondOk 0#32 (clearControl s)) := by
  rcases guarded_next h with ⟨h1, h2⟩ | ⟨h1, h2, h3⟩ | ⟨h1, h2, h3⟩
  · exact .inl ⟨of_decide_eq_false h1, h2⟩
  · exact .inr (.inl ⟨of_decide_eq_true h1, by simpa using h2, h3⟩)
  · exact .inr (.inr ⟨of_decide_eq_true h1, by simpa using h2, (Host.Outcome.next.inj h3).symm⟩)

theorem execPush_next {b : Byte} {s t : State} (h : execPush b s = .next t) :
    (s.phase ≠ .idle ∧ t = raiseIf .phase s) ∨
      (s.phase = .idle ∧ s.len.toNat = s.cap ∧ t = raiseRes .pushFull s) ∨
      (s.phase = .idle ∧ s.len.toNat < s.cap ∧
        t = respondOk 0#32 { s with mb := mbPut s.mb s.len.toNat b, len := s.len + 1#64 }) := by
  rcases guarded_next h with ⟨h1, _⟩ | ⟨_, h2, h3⟩ | ⟨_, h2, h3⟩
  · cases h1
  · exact .inl ⟨of_decide_eq_false h2, h3⟩
  · have hp : s.phase = .idle := of_decide_eq_true h2
    split at h3
    · rename_i hc
      exact .inr (.inl ⟨hp, hc, (Host.Outcome.next.inj h3).symm⟩)
    · obtain ⟨m, hm, h4⟩ := andThen_next h3
      obtain ⟨hlt, rfl⟩ := (memWrite1_ok_iff ..).mp hm
      exact .inr (.inr ⟨hp, hlt, (Host.Outcome.next.inj h4).symm⟩)

theorem execStart_next {imm : Byte} {s t : State} (h : execStart imm s = .next t) :
    (imm ≠ 0#8 ∧ t = raiseIf .operand s) ∨ (imm = 0#8 ∧ s.phase ≠ .idle ∧ t = raiseIf .phase s) ∨
      (imm = 0#8 ∧ s.phase = .idle ∧ s.cap < plenOf s.len.toNat ∧ t = raiseRes .startCap s) ∨
      (imm = 0#8 ∧ s.phase = .idle ∧ plenOf s.len.toNat ≤ s.cap ∧ t = respondOk 0#32
        (setSeq .pad80 0#64 0#6 { s with plen := BitVec.ofNat 64 (plenOf s.len.toNat), pp := s.len })) := by
  rcases guarded_next h with ⟨h1, h2⟩ | ⟨h1, h2, h3⟩ | ⟨h1, h2, h3⟩
  · exact .inl ⟨of_decide_eq_false h1, h2⟩
  · exact .inr (.inl ⟨of_decide_eq_true h1, of_decide_eq_false h2, h3⟩)
  · have hi : imm = 0#8 := of_decide_eq_true h1
    have hp : s.phase = .idle := of_decide_eq_true h2
    split at h3
    · rename_i hc
      exact .inr (.inr (.inl ⟨hi, hp, hc, (Host.Outcome.next.inj h3).symm⟩))
    · rename_i hc
      exact .inr (.inr (.inr ⟨hi, hp, Nat.le_of_not_lt hc, (Host.Outcome.next.inj h3).symm⟩))

/-- A digest read of any of the three forms: refused for its operand, refused outside `DONE`, or answered. -/
theorem guardedRead_next {legal : Bool} {data : Word} {s t : State}
    (h : guarded legal (acceptsRead s) s (.next (respondOk data s)) = .next t) :
    (legal = false ∧ t = raiseIf .operand s) ∨ (legal = true ∧ s.phase ≠ .done ∧ t = raiseIf .phase s) ∨
      (legal = true ∧ s.phase = .done ∧ t = respondOk data s) := by
  rcases guarded_next h with ⟨h1, h2⟩ | ⟨h1, h2, h3⟩ | ⟨h1, h2, h3⟩
  · exact .inl ⟨h1, h2⟩
  · exact .inr (.inl ⟨h1, of_decide_eq_false h2, h3⟩)
  · exact .inr (.inr ⟨h1, of_decide_eq_true h2, (Host.Outcome.next.inj h3).symm⟩)

theorem execRdw_next {i : Byte} {s t : State} (h : execRdw i s = .next t) :
    (7 < i.toNat ∧ t = raiseIf .operand s) ∨ (i.toNat ≤ 7 ∧ s.phase ≠ .done ∧ t = raiseIf .phase s) ∨
      (i.toNat ≤ 7 ∧ s.phase = .done ∧ t = respondOk (digestWordAt s i) s) := by
  simpa [immUpTo] using guardedRead_next h

theorem execRdb_next {j : Byte} {s t : State} (h : execRdb j s = .next t) :
    (31 < j.toNat ∧ t = raiseIf .operand s) ∨ (j.toNat ≤ 31 ∧ s.phase ≠ .done ∧ t = raiseIf .phase s) ∨
      (j.toNat ≤ 31 ∧ s.phase = .done ∧ t = respondOk (digestByteAt s j) s) := by
  simpa [immUpTo] using guardedRead_next h

theorem execRdx_next {j : Byte} {s t : State} (h : execRdx j s = .next t) :
    (63 < j.toNat ∧ t = raiseIf .operand s) ∨ (j.toNat ≤ 63 ∧ s.phase ≠ .done ∧ t = raiseIf .phase s) ∨
      (j.toNat ≤ 63 ∧ s.phase = .done ∧ t = respondOk (digestCharAt s j) s) := by
  simpa [immUpTo] using guardedRead_next h

theorem execRds_next {imm : Byte} {s t : State} (h : execRds imm s = .next t) :
    (imm ≠ 0#8 ∧ t = raiseIf .operand s) ∨ (imm = 0#8 ∧ t = respondOk (statusWord s) s) := by
  rcases guarded_next h with ⟨h1, h2⟩ | ⟨_, h2, _⟩ | ⟨h1, _, h2⟩
  · exact .inl ⟨of_decide_eq_false h1, h2⟩
  · cases h2
  · exact .inr ⟨of_decide_eq_true h1, (Host.Outcome.next.inj h2).symm⟩

/-! ## Micro-operations -/

theorem execPad80_next {s t : State} (h : execPad80 s = .next t) :
    s.len.toNat < s.cap ∧ t = { s with
      mb := mbPut s.mb s.len.toNat 0x80#8, pp := s.len + 1#64, t := 0#6,
      phase := if zerosFollowMarker s then .padz else .padl } := by
  obtain ⟨m, hm, h⟩ := andThen_next h
  obtain ⟨hlt, rfl⟩ := (memWrite1_ok_iff ..).mp hm
  exact ⟨hlt, (Host.Outcome.next.inj h).symm⟩

theorem execPadz_next {s t : State} (h : execPadz s = .next t) :
    s.pp.toNat < s.cap ∧ t = { s with
      mb := mbPut s.mb s.pp.toNat 0x00#8, pp := s.pp + 1#64,
      phase := if lastZeroByte s then .padl else s.phase } := by
  obtain ⟨m, hm, h⟩ := andThen_next h
  obtain ⟨hlt, rfl⟩ := (memWrite1_ok_iff ..).mp hm
  exact ⟨hlt, (Host.Outcome.next.inj h).symm⟩

theorem execPadl_next {s t : State} (h : execPadl s = .next t) :
    s.t.toNat ≤ 7 ∧ s.pp.toNat < s.cap ∧
      t = { s with
        mb := mbPut s.mb s.pp.toNat (trailerByte s), pp := s.pp + 1#64,
        t := if s.t = 7#6 then 0#6 else s.t + 1#6, phase := if s.t = 7#6 then .ldiv else s.phase } := by
  obtain ⟨_, ht, h⟩ := withinSteps_next h
  obtain ⟨m, hm, h⟩ := andThen_next h
  obtain ⟨hlt, rfl⟩ := (memWrite1_ok_iff ..).mp hm
  refine ⟨ht, hlt, ?_⟩
  split at h <;> rename_i h7 <;> simp [h7, ← Host.Outcome.next.inj h]

theorem execLdiv_next {s t : State} (h : execLdiv s = .next t) :
    t = setSeq .ldw 0#64 0#6 { s with h := ivRom } := (Host.Outcome.next.inj h).symm

theorem execLdw_next {s t : State} (h : execLdw s = .next t) :
    s.t.toNat ≤ 15 ∧ ∃ x, memRead4 s (blockWordAddr s) = .ok x ∧ t = { s with
      w := putW s x, t := s.t + 1#6, phase := if s.t = 15#6 then .exp else s.phase } := by
  obtain ⟨_, ht, h⟩ := withinSteps_next h
  obtain ⟨x, hx, h⟩ := andThen_next h
  exact ⟨ht, x, hx, (Host.Outcome.next.inj h).symm⟩

theorem execExp_next {s t : State} (h : execExp s = .next t) :
    16 ≤ s.t.toNat ∧ t = { s with
      w := putW s (expandWord (wBack s 16) (wBack s 15) (wBack s 7) (wBack s 2))
      t := if s.t = 63#6 then 0#6 else s.t + 1#6
      phase := if s.t = 63#6 then .ldv else s.phase } := by
  obtain ⟨ht, _, h⟩ := withinSteps_next h
  exact ⟨ht, (Host.Outcome.next.inj h).symm⟩

theorem execLdv_next {s t : State} (h : execLdv s = .next t) :
    t = { s with v := s.h, t := 0#6, phase := .rnd } := (Host.Outcome.next.inj h).symm

theorem execRnd_next {s t : State} (h : execRnd s = .next t) :
    t = { s with
      v := round s.v (kAtT s) (wAtT s)
      t := if s.t = 63#6 then 0#6 else s.t + 1#6
      phase := if s.t = 63#6 then .fold else s.phase } := (Host.Outcome.next.inj h).symm

theorem execFold_next {s t : State} (h : execFold s = .next t) :
    t = { s with
      h := addWords s.h s.v, blk := s.blk + 1#64, t := 0#6,
      phase := if lastBlock s then .done else .ldw } := (Host.Outcome.next.inj h).symm

/-! ## Steps -/

/-- A host step is an illegal word refused, or the decoded command executed (R91, R97). -/
theorem hostStep_next {cw : CommandWord} {s t : State} (h : hostStep cw s = .next t) :
    (∃ r, decodeCommand cw = .error r ∧ t = raiseIf (illegalCause r) s) ∨
      (∃ i, decodeCommand cw = .ok i ∧ exec i s = .next t) := by
  simp only [hostStep] at h
  split at h
  · rename_i i hi; exact .inr ⟨i, hi, h⟩
  · rename_i r hr; exact .inl ⟨r, hr, (Host.Outcome.next.inj h).symm⟩

/-- A core step is the micro-operation of the phase, or nothing outside the busy phases (R29). -/
theorem coreStep_next {s t : State} (h : coreStep s = .next t) :
    (∃ i, microOpOf s.phase = some i ∧ exec i s = .next t) ∨ (microOpOf s.phase = none ∧ t = s) := by
  rw [coreStep_eq] at h
  split at h
  · rename_i i hi; exact .inl ⟨i, hi, h⟩
  · rename_i hi; exact .inr ⟨hi, (Host.Outcome.next.inj h).symm⟩

/-- A step of the system is a core step with no move listed, or the oldest listed move (R11, R270). -/
theorem step_next {s t : State} (h : step s = .next t) :
    (s.moves = [] ∧ coreStep s = .next t) ∨
      (∃ cw rest, s.moves = .command cw :: rest ∧ hostStep cw (setMoves rest s) = .next t) ∨
      (∃ rest, s.moves = .core :: rest ∧ coreStep (setMoves rest s) = .next t) ∨
      (∃ rest, s.moves = .reset :: rest ∧ t = resetCore (setMoves rest s)) := by
  simp only [step, systemStep] at h
  split at h
  · rename_i hm; exact .inl ⟨hm, h⟩
  · rename_i cw rest hm; exact .inr (.inl ⟨cw, rest, hm, h⟩)
  · rename_i rest hm; exact .inr (.inr (.inl ⟨rest, hm, h⟩))
  · rename_i rest hm; exact .inr (.inr (.inr ⟨rest, hm, (Host.Outcome.next.inj h).symm⟩))

end Sys2Proof.Machine
end

