-- ==== Sys2Proof/Laws/PerInstr.lean ====
section
/-! SUPPORT. What holds of every operation as syntax: its code against the tables of 30_encoding.md. -/

namespace Sys2Proof.Laws.TableRow

open Sys2Proof.Machine (Phase phaseCode busy)

/-- A command's word has its operand legal exactly when some row of R94 applies to the word, and no two rows do. -/
abbrev CommandRow (i : Instr) (cw : CommandWord) : Prop :=
  i.isCommand = true ∧ (i.WellFormed ↔ commandRows.any (rowApplies · cw) = true) ∧
    commandRows.countP (rowApplies · cw) ≤ 1

/-- A micro-operation's code is the code of a busy phase (R99). -/
abbrev PhaseRow (i : Instr) (p : BitVec 4) : Prop :=
  i.isCommand = false ∧ i.WellFormed ∧ ∃ ph, phaseCode ph = p ∧ busy ph = true

/-- The code of an operation against its row of the opcode table. -/
def Statement (i : Instr) : Prop :=
  match encode i with
  | .cmd16 cw => CommandRow i cw
  | .phase4 p => PhaseRow i p

theorem nop (imm : Byte) : Statement (.nop imm) := by
  revert imm
  exact (by decide : ∀ x : Byte, CommandRow (.nop x) (commandWord 0#8 x))

theorem clr (imm : Byte) : Statement (.clr imm) := by
  revert imm
  exact (by decide : ∀ x : Byte, CommandRow (.clr x) (commandWord 1#8 x))

theorem push (b : Byte) : Statement (.push b) := by
  revert b
  exact (by decide : ∀ x : Byte, CommandRow (.push x) (commandWord 2#8 x))

theorem start (imm : Byte) : Statement (.start imm) := by
  revert imm
  exact (by decide : ∀ x : Byte, CommandRow (.start x) (commandWord 3#8 x))

theorem rdw (i : Byte) : Statement (.rdw i) := by
  revert i
  exact (by decide : ∀ x : Byte, CommandRow (.rdw x) (commandWord 4#8 x))

theorem rdb (j : Byte) : Statement (.rdb j) := by
  revert j
  exact (by decide : ∀ x : Byte, CommandRow (.rdb x) (commandWord 5#8 x))

theorem rdx (j : Byte) : Statement (.rdx j) := by
  revert j
  exact (by decide : ∀ x : Byte, CommandRow (.rdx x) (commandWord 6#8 x))

theorem rds (imm : Byte) : Statement (.rds imm) := by
  revert imm
  exact (by decide : ∀ x : Byte, CommandRow (.rds x) (commandWord 7#8 x))

theorem pad80 : Statement .pad80 := ⟨rfl, rfl, .pad80, rfl, rfl⟩

theorem padz : Statement .padz := ⟨rfl, rfl, .padz, rfl, rfl⟩

theorem padl : Statement .padl := ⟨rfl, rfl, .padl, rfl, rfl⟩

theorem ldiv : Statement .ldiv := ⟨rfl, rfl, .ldiv, rfl, rfl⟩

theorem ldw : Statement .ldw := ⟨rfl, rfl, .ldw, rfl, rfl⟩

theorem exp : Statement .exp := ⟨rfl, rfl, .exp, rfl, rfl⟩

theorem ldv : Statement .ldv := ⟨rfl, rfl, .ldv, rfl, rfl⟩

theorem rnd : Statement .rnd := ⟨rfl, rfl, .rnd, rfl, rfl⟩

theorem fold : Statement .fold := ⟨rfl, rfl, .fold, rfl, rfl⟩

end Sys2Proof.Laws.TableRow
end

