-- ==== Sys2Proof/Laws/Runs.lean ====
section
/-! SUPPORT. Runs put together, a core step as a step, the command words of a list of moves, counters that do
not wrap, and the message of a state. -/

namespace Sys2Proof.Machine

/-! ## Runs -/

theorem runSteps_one {s t : State} (h : step s = .next t) : runSteps 1 s = .next t := by simp [runSteps, h]

/-- A run goes on from where a shorter one ended. -/
theorem runSteps_trans {n : Nat} (m : Nat) {s t : State} (h : runSteps n s = .next t) :
    runSteps (n + m) s = runSteps m t := by
  induction n generalizing s with
  | zero => cases h; rw [Nat.zero_add]
  | succ n ih =>
    rw [show n + 1 + m = n + m + 1 by omega]
    simp only [runSteps] at h ⊢
    split at h
    · exact ih h
    · cases h
    · cases h

theorem step_of_moves_nil {s : State} (h : s.moves = []) : step s = coreStep s := by simp [step, systemStep, h]

theorem step_of_command {s : State} {cw : CommandWord} {rest : List Move} (h : s.moves = .command cw :: rest) :
    step s = hostStep cw (setMoves rest s) := by simp [step, systemStep, h]

theorem step_of_core {s : State} {rest : List Move} (h : s.moves = .core :: rest) :
    step s = coreStep (setMoves rest s) := by simp [step, systemStep, h]

/-- Outside the busy phases the core does nothing (R29). -/
theorem coreStep_of_not_busy {s : State} (h : busy s.phase = false) : coreStep s = .next s := by
  rw [coreStep_eq]
  rcases (busy_eq_false_iff _).mp h with h | h | h <;> rw [h] <;> rfl

/-! ## The command words of a list of moves -/

@[simp] theorem commandsOf_nil : commandsOf [] = [] := rfl
@[simp] theorem commandsOf_command (cw : CommandWord) (l : List Move) :
    commandsOf (.command cw :: l) = cw :: commandsOf l := rfl
@[simp] theorem commandsOf_core (l : List Move) : commandsOf (.core :: l) = commandsOf l := rfl
@[simp] theorem commandsOf_reset (l : List Move) : commandsOf (.reset :: l) = commandsOf l := rfl

@[simp] theorem commandsOf_append (l k : List Move) : commandsOf (l ++ k) = commandsOf l ++ commandsOf k :=
  List.filterMap_append

@[simp] theorem commandsOf_map (l : List CommandWord) : commandsOf (l.map Move.command) = l := by
  induction l with
  | nil => rfl
  | cons cw l ih => simp [ih]

/-- Turns of the core are no commands. -/
theorem commandsOf_filter (l : List Move) : commandsOf (l.filter (· ≠ Move.core)) = commandsOf l := by
  induction l with
  | nil => rfl
  | cons m l ih => cases m <;> simpa using ih

/-! ## Counters -/

theorem count_succ {x : Count} (h : x.toNat < 2 ^ 63) : (x + 1#64).toNat = x.toNat + 1 := by
  rw [BitVec.toNat_add]; simp; omega

theorem t_succ {x : BitVec 6} (h : x.toNat < 63) : (x + 1#6).toNat = x.toNat + 1 := by
  rw [BitVec.toNat_add]; simp; omega

theorem t_eq_iff {x : BitVec 6} {n : Nat} (h : n < 64) : x = BitVec.ofNat 6 n ↔ x.toNat = n := by
  rw [← BitVec.toNat_inj]; simp; omega

/-! ## The message -/

@[simp] theorem message_length (s : State) : (message s).length = s.len.toNat := by simp [message]

theorem message_getElem? (s : State) {x : Nat} (h : x < s.len.toNat) :
    (message s)[x]? = some ((mbGet s.mb x).getD 0#8) := by simp [message, h]

/-- The message depends on `LEN` and the bytes below it alone. -/
theorem message_congr {s t : State} (hl : t.len = s.len)
    (hm : ∀ x, x < s.len.toNat → mbGet t.mb x = mbGet s.mb x) : message t = message s := by
  simp only [message, hl]
  exact List.map_congr_left fun a ha => by rw [hm a (List.mem_range.mp ha)]

/-- One more padded byte. -/
theorem paddedTo_succ {s t : State} {n : Nat} {b : Byte} (hl : t.len = s.len) (hn : s.len.toNat ≤ n)
    (hm : t.mb = mbPut s.mb n b) (h : PaddedTo s n) (hb : b = padByte (message s) n) : PaddedTo t (n + 1) := by
  have e : message t = message s := message_congr hl fun x hx => by rw [hm, mbGet_mbPut_other _ _ (by omega)]
  intro x hx
  rw [e, hm, mbGet_mbPut]
  split
  · rename_i hh; rw [hh, hb]
  · exact h x (by omega)

/-! ## The invariant and the model's own fields -/

/-- The invariant says nothing of the moves to come. -/
theorem coreInv_setMoves {s : State} (l : List Move) (h : CoreInv s) : CoreInv (setMoves l s) :=
  ⟨h.capLegal, h.mbCanonical, h.mbInside, h.lenBound, h.plenForm, h.plenZero, h.ppBound, h.blkBound, h.ecodeError,
    h.tInRange, h.padPointer, h.blockPlace, h.written⟩

/-- Nor of the responses given. -/
theorem coreInv_respond {s : State} (rc : RespCode) (data : Word) (h : CoreInv s) : CoreInv (respond rc data s) :=
  ⟨h.capLegal, h.mbCanonical, h.mbInside, h.lenBound, h.plenForm, h.plenZero, h.ppBound, h.blkBound, h.ecodeError,
    h.tInRange, h.padPointer, h.blockPlace, h.written⟩

end Sys2Proof.Machine
end

