-- ==== Sys2Proof/Tests/Slice0.lean ====
section
/-! SUPPORT. Tests of single steps, with expected values from spec/95_test_vectors.md, and for every statement with
hypotheses a witness that meets them. -/

namespace Sys2Proof.Tests

open Sys2Proof Sys2Proof.Machine

/-! ## Helpers -/

/-- The state after reset with the small buffer `CAP = 64` (95 section 8.3). -/
def small : State := { State.reset with cap := 64 }

/-- `small` with the given moves to come. -/
def moving (l : List Move) : State := setMoves l small

/-- A padding state of the message "abc", whose padded length is 64 (95 section 4.1). -/
def padding (p : Phase) (len pp : Count) (t : BitVec 6) : State :=
  { small with phase := p, len := len, plen := 64#64, pp := pp, t := t }

/-- The digest of "abc" (95 section 4.4). -/
def abcDigest : Vector Word 8 :=
  #v[0xBA7816BF#32, 0x8F01CFEA#32, 0x414140DE#32, 0x5DAE2223#32,
     0xB00361A3#32, 0x96177A9C#32, 0xB410FF61#32, 0xF20015AD#32]

/-- `DONE` with the digest of "abc". -/
def abcDone : State :=
  { small with phase := .done, len := 3#64, plen := 64#64, pp := 64#64, blk := 1#64, h := abcDigest }

/-- `ERROR` after a `START` that did not fit (95 section 8.2, state E). -/
def failed : State := { small with phase := .error, ecode := .startCap, len := 56#64 }

/-- `IV` (10_state.md R26). -/
def iv : Vector Word 8 :=
  #v[0x6A09E667#32, 0xBB67AE85#32, 0x3C6EF372#32, 0xA54FF53A#32,
     0x510E527F#32, 0x9B05688C#32, 0x1F83D9AB#32, 0x5BE0CD19#32]

/-- The 64 bytes of the padded empty message (95 section 5.1): `80`, then zeros. -/
def emptyPadded : List Host.Cell :=
  mbPutList [] 0 (0x80#8 :: List.replicate 63 0x00#8)

/-- What a test looks at: the next state's part `f`, if there is one. -/
def nextIs {α : Type} (r : Result) (f : State → α) : Option α :=
  match r with
  | .next t => some (f t)
  | .fault _ => none
  | .refused _ => none

theorem next_of_nextIs {α : Type} {r : Result} {f : State → α} {x : α} (h : nextIs r f = some x) :
    ∃ t, r = .next t ∧ f t = x := by
  cases r with
  | next t => exact ⟨t, rfl, Option.some.inj h⟩
  | fault f => cases h
  | refused r => cases h

/-- The fault a step ends in, if it does. -/
def faultOf (r : Result) : Option Fault :=
  match r with
  | .next _ => none
  | .fault f => some f
  | .refused _ => none

/-! ## Well-formedness: an ill-formed term for each check (R93) -/

theorem test_wf_nop : ¬(Instr.nop 1#8).WellFormed := by decide
theorem test_wf_clr : ¬(Instr.clr 0xFF#8).WellFormed := by decide
theorem test_wf_start : ¬(Instr.start 1#8).WellFormed := by decide
theorem test_wf_rdw : ¬(Instr.rdw 8#8).WellFormed := by decide
theorem test_wf_rdb : ¬(Instr.rdb 32#8).WellFormed := by decide
theorem test_wf_rdx : ¬(Instr.rdx 64#8).WellFormed := by decide
theorem test_wf_rds : ¬(Instr.rds 0xFF#8).WellFormed := by decide

/-! ## Decoding: words written out from R94 (95 section 8.1) and R99 -/

theorem test_decode_nop : decodeTableWord 16 0b0000000000000000 = some (.nop 0#8) := by decide
theorem test_decode_clr : decodeTableWord 16 0b0000000100000000 = some (.clr 0#8) := by decide
theorem test_decode_push : decodeTableWord 16 0b0000001001100001 = some (.push 0x61#8) := by decide
theorem test_decode_start : decodeTableWord 16 0b0000001100000000 = some (.start 0#8) := by decide
theorem test_decode_rdw : decodeTableWord 16 0b0000010000000111 = some (.rdw 7#8) := by decide
theorem test_decode_rdb : decodeTableWord 16 0b0000010100011111 = some (.rdb 31#8) := by decide
theorem test_decode_rdx : decodeTableWord 16 0b0000011000111111 = some (.rdx 63#8) := by decide
theorem test_decode_rds : decodeTableWord 16 0b0000011100000000 = some (.rds 0#8) := by decide
theorem test_decode_pad80 : decodeTableWord 8 0b0001 = some .pad80 := by decide
theorem test_decode_padz : decodeTableWord 8 0b0010 = some .padz := by decide
theorem test_decode_padl : decodeTableWord 8 0b0011 = some .padl := by decide
theorem test_decode_ldiv : decodeTableWord 8 0b0100 = some .ldiv := by decide
theorem test_decode_ldw : decodeTableWord 8 0b0101 = some .ldw := by decide
theorem test_decode_exp : decodeTableWord 8 0b0110 = some .exp := by decide
theorem test_decode_ldv : decodeTableWord 8 0b0111 = some .ldv := by decide
theorem test_decode_rnd : decodeTableWord 8 0b1000 = some .rnd := by decide
theorem test_decode_fold : decodeTableWord 8 0b1001 = some .fold := by decide

/-- The words 95 section 8.1 lists as illegal, with their kind. -/
theorem test_decode_illegal :
    decodeCommand 0x0001#16 = .error .operandRange ∧ decodeCommand 0x01FF#16 = .error .operandRange ∧
    decodeCommand 0x0301#16 = .error .operandRange ∧ decodeCommand 0x0408#16 = .error .operandRange ∧
    decodeCommand 0x0520#16 = .error .operandRange ∧ decodeCommand 0x0640#16 = .error .operandRange ∧
    decodeCommand 0x07FF#16 = .error .operandRange ∧ decodeCommand 0x0800#16 = .error .reservedOpcode ∧
    decodeCommand 0xFFFF#16 = .error .reservedOpcode := by decide

/-- The pseudo-operations of R103: `RDIGEST` is 0400 .. 0407, `PUSHN 'a', 2` is 0261 twice (95 section 9). -/
theorem test_pseudo : rdigestWords = [0x0400#16, 0x0401#16, 0x0402#16, 0x0403#16, 0x0404#16, 0x0405#16, 0x0406#16,
    0x0407#16] ∧ pushnWords 0x61#8 2 = [0x0261#16, 0x0261#16] ∧
    callWords [0x61#8] = [0x0100#16, 0x0261#16, 0x0300#16] := by decide

/-! ## Functions (95 section 3 and 4) -/

/-- The sigma functions on the first round of "abc" (43_compressor.md R178's example). -/
theorem test_round_functions :
    S1 0x510E527F#32 = 0x3587272B#32 ∧ ch 0x510E527F#32 0x9B05688C#32 0x1F83D9AB#32 = 0x1F85C98C#32 ∧
    S0 0x6A09E667#32 = 0xCE20B47E#32 ∧ maj 0x6A09E667#32 0xBB67AE85#32 0x3C6EF372#32 = 0x3A6FE667#32 := by decide

/-- The schedule functions of 95 section 4.2. -/
theorem test_schedule_functions :
    s0 0x00000018#32 = 0x30060003#32 ∧ s1 0x00000018#32 = 0x000F0000#32 ∧ s1 0x61626380#32 = 0x7DA86405#32 ∧
    s0 0xFB3E89CB#32 = 0x2AE352E5#32 ∧ s1 0x668B2FF8#32 = 0xF21A9D5F#32 := by decide

/-! ## Commands -/

theorem test_nop_ok : nextIs (exec (.nop 0#8) small) State.responses = some [⟨.ok, 0#32⟩] := by decide
theorem test_nop_operand : nextIs (exec (.nop 1#8) failed) State.responses = some [⟨.errIf, 2#32⟩] := by decide

theorem test_clr_leaves_error : nextIs (exec (.clr 0#8) failed) (fun t => (t.phase, t.ecode, t.len, t.responses)) =
    some (.idle, .none, 0#64, [⟨.ok, 0#32⟩]) := by decide
theorem test_clr_busy : nextIs (exec (.clr 0#8) (padding .padz 1#64 6#64 0#6)) State.responses =
    some [⟨.errIf, 3#32⟩] := by decide

theorem test_push_first : nextIs (exec (.push 0x62#8) small) (fun t => (t.mb, t.len, t.responses)) =
    some ([(0, 0x62#8)], 1#64, [⟨.ok, 0#32⟩]) := by decide
/-- The 65th byte into a buffer of 64 (95 section 8.3). -/
theorem test_push_full : nextIs (exec (.push 0x00#8) { small with len := 64#64 })
    (fun t => (t.phase, t.ecode, t.len, t.mb.length, t.responses)) =
    some (.error, .pushFull, 64#64, 0, [⟨.errRes, 1#32⟩]) := by decide

/-- `L = 55` fits `CAP = 64`, with `PLEN = 64` (95 section 8.3). -/
theorem test_start_fits : nextIs (exec (.start 0#8) { small with len := 55#64 })
    (fun t => (t.phase, t.plen, t.pp, t.responses)) = some (.pad80, 64#64, 55#64, [⟨.ok, 0#32⟩]) := by decide
/-- `L = 56` does not (95 section 8.3). -/
theorem test_start_too_long : nextIs (exec (.start 0#8) { small with len := 56#64 })
    (fun t => (t.phase, t.ecode, t.plen, t.responses, statusWord t)) =
    some (.error, .startCap, 0#64, [⟨.errRes, 2#32⟩], 0x00000028#32) := by decide

theorem test_rdw_last : nextIs (exec (.rdw 7#8) abcDone) State.responses = some [⟨.ok, 0xF20015AD#32⟩] := by decide
theorem test_rdw_idle : nextIs (exec (.rdw 0#8) small) State.responses = some [⟨.errIf, 3#32⟩] := by decide
theorem test_rdb_last : nextIs (exec (.rdb 31#8) abcDone) State.responses = some [⟨.ok, 0x000000AD#32⟩] := by decide
theorem test_rdb_middle : nextIs (exec (.rdb 5#8) abcDone) State.responses = some [⟨.ok, 0x00000001#32⟩] := by decide
/-- Character 0 is `b`. -/
theorem test_rdx_letter : nextIs (exec (.rdx 0#8) abcDone) State.responses = some [⟨.ok, 0x00000062#32⟩] := by decide
/-- Character 2 is `7`. -/
theorem test_rdx_digit : nextIs (exec (.rdx 2#8) abcDone) State.responses = some [⟨.ok, 0x00000037#32⟩] := by decide
theorem test_rds_done : nextIs (exec (.rds 0#8) abcDone) State.responses = some [⟨.ok, 0x00000004#32⟩] := by decide
theorem test_rds_error : nextIs (exec (.rds 0#8) failed) State.responses = some [⟨.ok, 0x00000028#32⟩] := by decide

/-- The priority of R246: `START 1` while busy is an operand error (95 section 8.2, row 0301 in B). -/
theorem test_priority_operand_over_phase :
    nextIs (step (setMoves [.command 0x0301#16] (padding .padz 1#64 6#64 0#6))) State.responses =
      some [⟨.errIf, 2#32⟩] := by decide

/-- A reserved opcode (95 section 8.2, row 0800). -/
theorem test_reserved_opcode :
    nextIs (step (moving [.command 0x0800#16])) (fun t => (t.responses, t.moves)) =
      some ([⟨.errIf, 1#32⟩], []) := by decide

/-! ## Micro-operations (95 section 8.4) -/

theorem test_pad80_zeros : nextIs (exec .pad80 (padding .pad80 3#64 3#64 0#6)) (fun t => (t.mb, t.pp, t.phase)) =
    some ([(3, 0x80#8)], 4#64, .padz) := by decide
theorem test_pad80_no_zeros : nextIs (exec .pad80 (padding .pad80 55#64 55#64 0#6))
    (fun t => (t.mb, t.pp, t.t, t.phase)) = some ([(55, 0x80#8)], 56#64, 0#6, .padl) := by decide
theorem test_padz_more : nextIs (exec .padz (padding .padz 3#64 4#64 0#6)) (fun t => (t.mb, t.pp, t.phase)) =
    some ([(4, 0x00#8)], 5#64, .padz) := by decide
theorem test_padz_last : nextIs (exec .padz (padding .padz 3#64 55#64 0#6)) (fun t => (t.mb, t.pp, t.t, t.phase)) =
    some ([(55, 0x00#8)], 56#64, 0#6, .padl) := by decide
theorem test_padl_last : nextIs (exec .padl (padding .padl 3#64 63#64 7#6)) (fun t => (t.mb, t.pp, t.t, t.phase)) =
    some ([(63, 0x18#8)], 64#64, 0#6, .ldiv) := by decide
/-- Byte 6 of `00000000000001c0`. -/
theorem test_padl_high : nextIs (exec .padl { padding .padl 56#64 126#64 6#6 with cap := 128, plen := 128#64 })
    (fun t => (t.mb, t.pp, t.t, t.phase)) = some ([(126, 0x01#8)], 127#64, 7#6, .padl) := by decide
theorem test_ldiv : nextIs (exec .ldiv (padding .ldiv 3#64 64#64 0#6)) (fun t => (t.h, t.blk, t.t, t.phase)) =
    some (iv, 0#64, 0#6, .ldw) := by decide
theorem test_ldw_first : nextIs (exec .ldw { padding .ldw 3#64 64#64 0#6 with
      mb := [(0, 0x61#8), (1, 0x62#8), (2, 0x63#8), (3, 0x80#8)] }) (fun t => (t.w[0], t.t, t.phase)) =
    some (0x61626380#32, 1#6, .ldw) := by decide
theorem test_ldw_last : nextIs (exec .ldw { padding .ldw 56#64 128#64 15#6 with
      cap := 128, plen := 128#64, blk := 1#64, mb := [(124, 0x00#8), (125, 0x00#8), (126, 0x01#8), (127, 0xC0#8)] })
    (fun t => (t.w[15], t.t, t.phase)) = some (0x000001C0#32, 16#6, .exp) := by decide
/-- `T = 17` on `pad("abc")`, whose word 15 is `0x18`. -/
theorem test_exp_middle : nextIs (exec .exp { padding .exp 3#64 64#64 17#6 with
      w := (Vector.replicate 64 0#32).set 15 0x18#32 }) (fun t => (t.w[17], t.t, t.phase)) =
    some (0x000F0000#32, 18#6, .exp) := by decide
/-- `T = 63` on the schedule of "abc": only the four words read matter. -/
theorem test_exp_last : nextIs (exec .exp { padding .exp 3#64 64#64 63#6 with
      w := ((((Vector.replicate 64 0#32).set 47 0x065C43DA#32).set 48 0xFB3E89CB#32).set 56 0xEF57B9CD#32).set 61
        0x668B2FF8#32 }) (fun t => (t.w[63], t.t, t.phase)) =
    some (0x12B1EDEB#32, 0#6, .ldv) := by decide
theorem test_ldv : nextIs (exec .ldv { padding .ldv 3#64 64#64 0#6 with h := iv }) (fun t => (t.v, t.t, t.phase)) =
    some (iv, 0#6, .rnd) := by decide
/-- Round 0 of "abc". -/
theorem test_rnd_first : nextIs (exec .rnd { padding .rnd 3#64 64#64 0#6 with
      v := iv, w := (Vector.replicate 64 0#32).set 0 0x61626380#32 }) (fun t => (t.v, t.t, t.phase)) =
    some (#v[0x5D6AEBCD#32, 0x6A09E667#32, 0xBB67AE85#32, 0x3C6EF372#32,
      0xFA2A4622#32, 0x510E527F#32, 0x9B05688C#32, 0x1F83D9AB#32], 1#6, .rnd) := by decide
/-- Round 63 of "abc". -/
theorem test_rnd_last : nextIs (exec .rnd { padding .rnd 3#64 64#64 63#6 with
      v := #v[0xD39A2165#32, 0x04D24D6C#32, 0xB85E2CE9#32, 0xB6AE8FFF#32,
        0xFB121210#32, 0x948D25B6#32, 0x961F4894#32, 0xB21BAD3D#32]
      w := (Vector.replicate 64 0#32).set 63 0x12B1EDEB#32 }) (fun t => (t.v, t.t, t.phase)) =
    some (#v[0x506E3058#32, 0xD39A2165#32, 0x04D24D6C#32, 0xB85E2CE9#32,
      0x5EF50F24#32, 0xFB121210#32, 0x948D25B6#32, 0x961F4894#32], 0#6, .fold) := by decide
/-- The fold of "abc": the digest, and the end. -/
theorem test_fold_done : nextIs (exec .fold { padding .fold 3#64 64#64 0#6 with
      h := iv
      v := #v[0x506E3058#32, 0xD39A2165#32, 0x04D24D6C#32, 0xB85E2CE9#32,
        0x5EF50F24#32, 0xFB121210#32, 0x948D25B6#32, 0x961F4894#32] }) (fun t => (t.h, t.blk, t.phase)) =
    some (abcDigest, 1#64, .done) := by decide
theorem test_fold_more : nextIs (exec .fold { padding .fold 56#64 128#64 0#6 with cap := 128, plen := 128#64 })
    (fun t => (t.blk, t.t, t.phase)) = some (1#64, 0#6, .ldw) := by decide

/-! ## Placing an instruction as the first after reset -/

theorem test_place_push : nextIs (step (State.reset.withFetchWord 16 0x0261)) (fun t => (t.mb, t.len)) =
    some ([(0, 0x61#8)], 1#64) := by decide
theorem test_place_exp : nextIs (step (State.reset.withFetchWord 8 6)) (fun t => (t.t, t.phase)) =
    some (17#6, .exp) := by decide
/-- `LDW` runs, and stops on the first byte nothing has written (10_state.md R43). -/
theorem test_place_ldw : faultOf (step (State.reset.withFetchWord 8 5)) = some (.mbUnwritten 0) := by decide

/-- The RESET event while busy (70_reset_and_hazards.md R270). -/
theorem test_reset_event : nextIs (step (setMoves [.reset] (padding .padz 3#64 9#64 0#6)))
    (fun t => (t.phase, t.len, t.plen, t.pp, t.mb.length)) = some (.idle, 0#64, 0#64, 0#64, 0) := by decide

/-! ## Witnesses: states and operands that meet the hypotheses of the statements

One theorem per statement with hypotheses, each clause at a boundary of its range. -/

/-- `IDLE` with `START` to come, an empty message (95 section 9, P1). -/
def idleStart : State := moving [.command 0x0300#16]

/-- Just after the accepted `START` of an empty message. -/
def busyPad80 : State := padding .pad80 0#64 0#64 0#6

/-- `DONE` after the empty message, its padded form in the buffer (95 section 5.1). -/
def emptyDone : State :=
  { small with phase := .done, plen := 64#64, pp := 64#64, blk := 1#64, mb := emptyPadded, h := sha256Words [] }

theorem idleStart_inv : CoreInv idleStart where
  capLegal := by decide
  mbCanonical := by decide
  mbInside := by decide
  lenBound := by decide
  plenForm := by decide
  plenZero := by decide
  ppBound := by decide
  blkBound := by decide
  ecodeError := by decide
  tInRange := rfl
  padPointer := rfl
  blockPlace := rfl
  written := fun a h => absurd h (Nat.not_lt_zero a)

theorem busyPad80_inv : CoreInv busyPad80 where
  capLegal := by decide
  mbCanonical := by decide
  mbInside := by decide
  lenBound := by decide
  plenForm := by decide
  plenZero := by decide
  ppBound := by decide
  blkBound := by decide
  ecodeError := by decide
  tInRange := rfl
  padPointer := rfl
  blockPlace := rfl
  written := fun a h => absurd h (Nat.not_lt_zero a)

theorem emptyDone_inv : CoreInv emptyDone where
  capLegal := by show Config.CapLegal 64; decide
  mbCanonical := by show Memory.wf emptyPadded; decide
  mbInside := by show ∀ c ∈ emptyPadded, c.1 < 64; decide
  lenBound := by show 0 ≤ 64; decide
  plenForm := by
    show 64#64 = 0#64 ∨ ((64#64 : Count).toNat % 64 = 0 ∧ (0#64 : Count).toNat + 9 ≤ (64#64 : Count).toNat ∧
      (64#64 : Count).toNat ≤ 64 ∧ (64#64 : Count).toNat < (0#64 : Count).toNat + 73)
    decide
  plenZero := by show 64#64 = 0#64 ↔ (Phase.done = .idle ∨ Phase.done = .error); decide
  ppBound := by show 64 ≤ 64; decide
  blkBound := by show 64 * 1 ≤ 64; decide
  ecodeError := by show ErrorCode.none ≠ .none ↔ Phase.done = .error; decide
  tInRange := rfl
  padPointer := rfl
  blockPlace := rfl
  written := by show Written emptyPadded 64; decide

theorem emptyDone_digest : DigestInv emptyDone := by
  refine ⟨?_, rfl⟩
  show ∀ x, x < 64 → mbGet emptyPadded x = some (padByte [] x)
  decide

theorem test_witness_DecodeOfEncode : (Instr.rdx 63#8).WellFormed ∧ Instr.fold.WellFormed := by decide

theorem test_witness_EncodeOfDecode :
    decode (.cmd16 0x051F#16) = .ok (.rdb 31#8) ∧ decode (.phase4 9#4) = .ok .fold := ⟨rfl, rfl⟩

theorem test_witness_CommandWordsClassified :
    8 ≤ (0x08#8 : Byte).toNat ∧ 8 ≤ (0xFF#8 : Byte).toNat ∧ ¬8 ≤ (0x07#8 : Byte).toNat := by decide

theorem test_witness_PhaseSelectsMicroOperation : 12 ≤ (12#4).toNat ∧ 12 ≤ (15#4).toNat := by decide

theorem test_witness_RotationAndShift : rotr 0x80000001#32 1 = 0xC0000000#32 ∧
    rotr 0x80000001#32 31 = 0x00000003#32 ∧ shr 0x80000001#32 31 = 1#32 := by decide

theorem test_witness_BitwiseFunctionsAndBytes : byteOfWord 0x01020304#32 0 = 0x01#8 ∧
    byteOfWord 0x01020304#32 3 = 0x04#8 ∧ nibbleOfWord 0x12345678#32 7 = 0x8#4 := by decide

theorem test_witness_PaddedLengthAndCapacity : 55 % 64 ≤ 55 ∧ 56 ≤ 56 % 64 ∧ Config.CapLegal 64 ∧
    Config.CapLegal (2 ^ 61) ∧ plenOf 55 = 64 ∧ plenOf 56 = 128 := by decide

theorem test_witness_PaddingByteByByte : 63 < plenOf ([] : List Byte).length ∧ ¬64 < plenOf ([] : List Byte).length := by
  decide

theorem test_witness_ScheduleRecurrence : 15 < 16 ∧ 16 ≤ 16 ∧ 16 ≤ 63 ∧ 63 < 64 := by decide

theorem test_witness_NopAnswersOk : (0#8 : Byte) = 0#8 ∧ (1#8 : Byte) ≠ 0#8 := by decide

theorem test_witness_ClrBeginsFreshCall :
    busy failed.phase = false ∧ busy busyPad80.phase = true ∧ (1#8 : Byte) ≠ 0#8 := by decide

theorem test_witness_PushAppendsByte :
    ({ small with len := 63#64 } : State).phase = .idle ∧
    ({ small with len := 63#64 } : State).len.toNat < ({ small with len := 63#64 } : State).cap ∧
    Config.CapLegal ({ small with len := 63#64 } : State).cap ∧
    ({ small with len := 64#64 } : State).phase = .idle ∧
    ({ small with len := 64#64 } : State).len.toNat = ({ small with len := 64#64 } : State).cap ∧
    failed.phase ≠ .idle := by decide

theorem test_witness_StartLatchesLengths :
    (small.phase = .idle ∧ 64 * ((({ small with len := 55#64 } : State).len.toNat + 9 + 63) / 64) ≤ small.cap) ∧
    small.cap < 64 * ((({ small with len := 56#64 } : State).len.toNat + 9 + 63) / 64) ∧
    Config.CapLegal small.cap ∧ busyPad80.phase ≠ .idle ∧ (1#8 : Byte) ≠ 0#8 := by decide

theorem test_witness_RdwReturnsDigestWord :
    (7#8 : Byte).toNat < 8 ∧ abcDone.phase = .done ∧ small.phase ≠ .done ∧ 7 < (8#8 : Byte).toNat := by decide

theorem test_witness_RdbReturnsDigestByte :
    (31#8 : Byte).toNat < 32 ∧ abcDone.phase = .done ∧ small.phase ≠ .done ∧ 31 < (32#8 : Byte).toNat := by decide

theorem test_witness_RdxReturnsHexCharacter :
    (63#8 : Byte).toNat < 64 ∧ abcDone.phase = .done ∧ small.phase ≠ .done ∧ 63 < (64#8 : Byte).toNat := by decide

theorem test_witness_RdsReturnsStatus :
    (failed.ecode ≠ .none ↔ failed.phase = .error) ∧ (small.ecode ≠ .none ↔ small.phase = .error) := by decide

theorem test_witness_AcceptanceByPhase :
    ((Instr.push 0#8).isCommand = true ∧ (Instr.push 0#8).WellFormed ∧ failed.len.toNat ≤ failed.cap) ∧
    refusedInPhase (.push 0#8) failed.phase ∧ ¬refusedInPhase (.push 0#8) small.phase ∧
    busy busyPad80.phase = true :=
  ⟨by decide, (nofun : failed.phase ≠ .idle), fun h => h rfl, rfl⟩

theorem test_witness_IllFormedOperandRefused : (Instr.rdw 8#8).isCommand = true ∧ ¬(Instr.rdw 8#8).WellFormed := by decide

theorem test_witness_IllegalWordsRefused :
    (moving [.command 0x0800#16]).moves = [.command 0x0800#16] ∧ 8 ≤ (0x0800#16 : CommandWord).toNat / 256 ∧
    ((0x0001#16 : CommandWord).toNat / 256 = 0 ∧ (0x0001#16 : CommandWord).toNat % 256 ≠ 0) ∧
    ((0x0408#16 : CommandWord).toNat / 256 = 4 ∧ 7 < (0x0408#16 : CommandWord).toNat % 256) ∧
    ((0x0520#16 : CommandWord).toNat / 256 = 5 ∧ 31 < (0x0520#16 : CommandWord).toNat % 256) ∧
    ((0x0640#16 : CommandWord).toNat / 256 = 6 ∧ 63 < (0x0640#16 : CommandWord).toNat % 256) := by decide

theorem test_witness_Pad80WritesMarker : (padding .pad80 63#64 63#64 0#6).len.toNat < small.cap := by decide

theorem test_witness_PadzWritesZero :
    (padding .padz 3#64 63#64 0#6).phase = .padz ∧ (padding .padz 3#64 63#64 0#6).pp.toNat < small.cap := by decide

theorem test_witness_PadlWritesTrailerByte : (padding .padl 3#64 63#64 7#6).phase = .padl ∧
    (padding .padl 3#64 63#64 7#6).t.toNat ≤ 7 ∧ (padding .padl 3#64 63#64 7#6).pp.toNat < small.cap := by decide

theorem test_witness_EightTrailerStepsAreOneWrite : (padding .padl 3#64 56#64 0#6).moves = [] ∧
    (padding .padl 3#64 56#64 0#6).t = 0#6 ∧ (padding .padl 3#64 56#64 0#6).pp.toNat + 8 ≤ small.cap ∧
    Config.CapLegal small.cap := by decide

theorem test_witness_LdwLoadsBlockWord :
    ∃ s : State, s.phase = .ldw ∧ s.t.toNat ≤ 15 ∧ 64 * s.blk.toNat + 4 * s.t.toNat + 4 ≤ s.cap ∧
    mbGet s.mb (64 * s.blk.toNat + 4 * s.t.toNat) = some 0x00#8 ∧
    mbGet s.mb (64 * s.blk.toNat + 4 * s.t.toNat + 1) = some 0x00#8 ∧
    mbGet s.mb (64 * s.blk.toNat + 4 * s.t.toNat + 2) = some 0x00#8 ∧
    mbGet s.mb (64 * s.blk.toNat + 4 * s.t.toNat + 3) = some 0x00#8 :=
  ⟨{ padding .ldw 0#64 64#64 15#6 with mb := emptyPadded }, by decide⟩

theorem test_witness_ExpExtendsSchedule : (padding .exp 3#64 64#64 16#6).phase = .exp ∧
    16 ≤ (padding .exp 3#64 64#64 16#6).t.toNat ∧ 16 ≤ (padding .exp 3#64 64#64 63#6).t.toNat := by decide

/-- Round 0 of "abc", with `t1` and `t2` as 43_compressor.md R178 gives them. -/
theorem test_witness_RndPerformsRound : ∃ (s : State) (a b c d e f g h t1 t2 : Word), s.phase = .rnd ∧
    s.v = #v[a, b, c, d, e, f, g, h] ∧
    t1 = h + (rotr e 6 ^^^ rotr e 11 ^^^ rotr e 25) + ((e &&& f) ^^^ (~~~e &&& g))
      + kRom[s.t.toNat]'s.t.isLt + s.w[s.t.toNat]'s.t.isLt ∧
    t2 = (rotr a 2 ^^^ rotr a 13 ^^^ rotr a 22) + ((a &&& b) ^^^ (a &&& c) ^^^ (b &&& c)) :=
  ⟨{ padding .rnd 3#64 64#64 0#6 with v := iv, w := (Vector.replicate 64 0#32).set 0 0x61626380#32 },
    _, _, _, _, _, _, _, _, 0x54DA50E8#32, 0x08909AE5#32, rfl, rfl, by decide, by decide⟩

theorem test_witness_ReadingCommandsFrame : (∃ t, exec (.nop 0#8) small = .next t) ∧
    (∃ t, exec (.rdw 7#8) abcDone = .next t) ∧ (∃ t, exec (.rdb 31#8) abcDone = .next t) ∧
    (∃ t, exec (.rdx 63#8) abcDone = .next t) ∧ ∃ t, exec (.rds 0#8) failed = .next t :=
  ⟨⟨_, rfl⟩, ⟨_, rfl⟩, ⟨_, rfl⟩, ⟨_, rfl⟩, ⟨_, rfl⟩⟩

theorem test_witness_ClrAndStartFrame : (∃ t, exec (.clr 0#8) failed = .next t) ∧
    ∃ t, exec (.start 0#8) small = .next t := ⟨⟨_, rfl⟩, ⟨_, rfl⟩⟩

theorem test_witness_PushFrame : ∃ t, exec (.push 0x61#8) small = .next t := ⟨_, rfl⟩

theorem test_witness_PaddingFrame : (∃ t, exec .pad80 (padding .pad80 3#64 3#64 0#6) = .next t) ∧
    (∃ t, exec .padz (padding .padz 3#64 4#64 0#6) = .next t) ∧
    ∃ t, exec .padl (padding .padl 3#64 56#64 0#6) = .next t := ⟨⟨_, rfl⟩, ⟨_, rfl⟩, ⟨_, rfl⟩⟩

theorem test_witness_ExpanderFrame :
    (∃ t, exec .ldw { padding .ldw 0#64 64#64 0#6 with mb := emptyPadded } = .next t) ∧
    ∃ t, exec .exp (padding .exp 0#64 64#64 16#6) = .next t := ⟨⟨_, rfl⟩, ⟨_, rfl⟩⟩

theorem test_witness_DigestRegistersFrame : (∃ t, exec .ldiv small = .next t) ∧ (∃ t, exec .ldv small = .next t) ∧
    (∃ t, exec .rnd small = .next t) ∧ ∃ t, exec .fold small = .next t :=
  ⟨⟨_, rfl⟩, ⟨_, rfl⟩, ⟨_, rfl⟩, ⟨_, rfl⟩⟩

theorem test_witness_StepRunsDecodedCommand : idleStart.moves = .command 0x0300#16 :: [] ∧
    decodeCommand 0x0300#16 = .ok (.start 0#8) := ⟨rfl, rfl⟩

theorem test_witness_CoreMoveRunsSelectedMicroOp :
    (moving [.core]).moves = .core :: [] ∧ busyPad80.moves = [] ∧
    decodePhase (phaseCode busyPad80.phase) = .ok .pad80 ∧ busy small.phase = false := ⟨rfl, rfl, rfl, rfl⟩

theorem test_witness_ResetEventClearsControl : (setMoves [.reset] busyPad80).moves = .reset :: [] := rfl

theorem test_witness_StepKeepsCoreInv : (∃ t, CoreInv idleStart ∧ step idleStart = .next t) ∧
    (∃ t, CoreInv (setMoves [.core] busyPad80) ∧ step (setMoves [.core] busyPad80) = .next t) ∧
    ∃ t, CoreInv (setMoves [.reset] busyPad80) ∧ step (setMoves [.reset] busyPad80) = .next t :=
  ⟨⟨_, idleStart_inv, rfl⟩, ⟨_, coreInv_setMoves _ busyPad80_inv, rfl⟩, ⟨_, coreInv_setMoves _ busyPad80_inv, rfl⟩⟩

theorem test_witness_CoreInvStatesNeverStop : CoreInv emptyDone := emptyDone_inv

theorem test_witness_StepKeepsDigestInv : ∃ t, CoreInv emptyDone ∧ DigestInv emptyDone ∧ step emptyDone = .next t :=
  ⟨_, emptyDone_inv, emptyDone_digest, rfl⟩

theorem test_witness_DigestReadsAreSha256 : CoreInv emptyDone ∧ DigestInv emptyDone ∧ emptyDone.phase = .done ∧
    (7#8 : Byte).toNat < 8 ∧ (31#8 : Byte).toNat < 32 ∧ (63#8 : Byte).toNat < 64 :=
  ⟨emptyDone_inv, emptyDone_digest, rfl, by decide, by decide, by decide⟩

theorem test_witness_HostCannotDisturbBusyCore : ∃ t, busy (setMoves [.command 0x0100#16] busyPad80).phase = true ∧
    step (setMoves [.command 0x0100#16] busyPad80) = .next t := ⟨_, rfl, rfl⟩

theorem test_witness_ErrorPhaseIsSticky : ∃ t, (setMoves [.command 0x0700#16] failed).phase = .error ∧
    (∀ rest, (setMoves [.command 0x0700#16] failed).moves ≠ .reset :: rest) ∧
    (∀ rest, (setMoves [.command 0x0700#16] failed).moves ≠ .command 0x0100#16 :: rest) ∧
    step (setMoves [.command 0x0700#16] failed) = .next t :=
  ⟨_, rfl, fun _ h => (nomatch h), fun _ h => absurd (List.cons.inj h).1 (by decide), rfl⟩

theorem test_witness_OneResponsePerCommand : (∃ t, step idleStart = .next t) ∧ ∃ t, step (moving [.core]) = .next t :=
  ⟨⟨_, rfl⟩, ⟨_, rfl⟩⟩

theorem test_witness_CommandsNeverWriteDatapath : ∃ t, step idleStart = .next t ∧
    idleStart.moves = .command 0x0300#16 :: [] := ⟨_, rfl, rfl⟩

theorem test_witness_CoreStepsCountDown : CoreInv (setMoves [] busyPad80) ∧ (setMoves [] busyPad80).moves = [] ∧
    busy (setMoves [] busyPad80).phase = true := ⟨coreInv_setMoves _ busyPad80_inv, rfl, rfl⟩

theorem test_witness_ComputationTerminates : CoreInv idleStart ∧ idleStart.phase = .idle ∧
    idleStart.moves = [.command 0x0300#16] ∧ plenOf idleStart.len.toNat ≤ idleStart.cap :=
  ⟨idleStart_inv, rfl, rfl, by decide⟩

theorem test_witness_SequencerTransitions :
    (∃ t, CoreInv (setMoves [.core] busyPad80) ∧ step (setMoves [.core] busyPad80) = .next t ∧
      busy (setMoves [.core] busyPad80).phase = true) ∧
    (∃ t, CoreInv emptyDone ∧ step emptyDone = .next t ∧ emptyDone.moves = [] ∧ busy emptyDone.phase = false) ∧
    ∃ t, CoreInv idleStart ∧ step idleStart = .next t ∧ idleStart.moves = .command 0x0300#16 :: [] :=
  ⟨⟨_, coreInv_setMoves _ busyPad80_inv, rfl, rfl⟩, ⟨_, emptyDone_inv, rfl, rfl, rfl⟩, ⟨_, idleStart_inv, rfl, rfl⟩⟩

/-- Where the clauses for `START` and `PUSH` meet: 55 bytes fit in 64 and 56 do not; the word of `PUSH` is any `02xx`. -/
theorem test_witness_SequencerTransitions_bounds :
    nextIs (step (setMoves [.command 0x0300#16] { small with len := 55#64 })) State.phase = some .pad80 ∧
    nextIs (step (setMoves [.command 0x0300#16] { small with len := 56#64 })) State.phase = some .error ∧
    plenOf 55 ≤ small.cap ∧ small.cap < plenOf 56 ∧
    nextIs (step (setMoves [.command 0x02FF#16] { small with len := 64#64 })) State.phase = some .error ∧
    (0x02FF#16 : CommandWord).toNat / 256 = 2 ∧ (64#64 : Count).toNat = small.cap := by decide

theorem test_witness_PadderCorrect : Config.CapLegal idleStart.cap ∧ idleStart.phase = .idle ∧
    idleStart.moves = [.command 0x0300#16] ∧ idleStart.len.toNat = ([] : List Byte).length ∧
    plenOf ([] : List Byte).length ≤ idleStart.cap ∧
    ∀ x, x < ([] : List Byte).length → mbGet idleStart.mb x = ([] : List Byte)[x]? :=
  ⟨by decide, rfl, rfl, rfl, by decide, fun x h => absurd h (Nat.not_lt_zero x)⟩

theorem test_witness_ExpanderCorrect : ∃ (s : State) (B : Block), s.moves = [] ∧ s.phase = .ldw ∧ s.t = 0#6 ∧
    64 * s.blk.toNat + 64 ≤ s.cap ∧ ∀ i, (h : i < 64) → mbGet s.mb (64 * s.blk.toNat + i) = some B[i] :=
  ⟨{ padding .ldw 0#64 64#64 0#6 with mb := emptyPadded }, blockOf (pad []) 0, rfl, rfl, rfl, by decide, by decide⟩

theorem test_witness_EngineCorrect : (padding .ldv 3#64 64#64 0#6).moves = [] ∧
    (padding .ldv 3#64 64#64 0#6).phase = .ldv := ⟨rfl, rfl⟩

/-- A call on the one byte `a`, the core scheduled once in the middle of it. -/
theorem test_witness_HashCallEndToEnd :
    CoreInv (setMoves [.core, .command 0x0100#16, .core, .command 0x0261#16, .command 0x0300#16] emptyDone) ∧
    busy emptyDone.phase = false ∧
    [Move.core, .command 0x0100#16, .core, .command 0x0261#16, .command 0x0300#16].filter (· ≠ Move.core) =
      (callWords [0x61#8]).map Move.command ∧
    [0x61#8].length + 9 ≤ small.cap ∧ small.cap < (List.replicate 56 0x61#8).length + 9 :=
  ⟨coreInv_setMoves _ emptyDone_inv, rfl, by decide, by decide, by decide⟩

/-- A call on the empty message, from `DONE`: `CLR`, `START`, the 195 core turns of R203, the eight reads. -/
def emptyCall : State :=
  setMoves ([.command 0x0100#16] ++ .command 0x0300#16 :: (List.replicate 195 Move.core ++
    rdigestWords.map Move.command)) emptyDone

/-- What `emptyCall` leaves: no move, `DONE`, and the digest of the empty message (95 section 9, P1). This is the one run
of many steps among the tests: no shorter run ends well. -/
theorem emptyCall_run : nextIs (runSteps 205 emptyCall) (fun u => (u.moves, u.phase, u.responses)) =
    some ([], .done, [⟨.ok, 0#32⟩, ⟨.ok, 0#32⟩, ⟨.ok, 0xE3B0C442#32⟩, ⟨.ok, 0x98FC1C14#32⟩, ⟨.ok, 0x9AFBF4C8#32⟩,
      ⟨.ok, 0x996FB924#32⟩, ⟨.ok, 0x27AE41E4#32⟩, ⟨.ok, 0x649B934C#32⟩, ⟨.ok, 0xA495991B#32⟩,
      ⟨.ok, 0x7852B855#32⟩]) := by decide +kernel

theorem test_witness_CallEndsWell : CoreInv emptyCall ∧ busy emptyCall.phase = false ∧
    0 + 9 ≤ emptyCall.cap ∧ (plenOf 0 - 0) + 1 + 130 * (plenOf 0 / 64) ≤ 195 ∧
    [Move.command 0x0100#16].filter (· ≠ Move.core) = (0x0100#16 :: pushsWords []).map Move.command ∧
    (rdigestWords.map Move.command).filter (· ≠ Move.core) = rdigestWords.map Move.command ∧
    ∃ u, EndedWell [] emptyCall u := by
  refine ⟨coreInv_setMoves _ emptyDone_inv, rfl, by decide, by decide, by decide, by decide, ?_⟩
  obtain ⟨u, hr, hu⟩ := next_of_nextIs emptyCall_run
  simp only [Prod.mk.injEq] at hu
  exact ⟨u, by decide +kernel, by unfold IsCall; decide +kernel, ⟨205, hr⟩, ⟨hu.1, by rw [hu.2.1]; rfl⟩, hu.2.1, by
    rw [answers, hu.2.2]; decide +kernel⟩

/-- Straight after reset `CLR` may be left out and polls may stand anywhere; with a byte pushed it may not (R276). -/
theorem test_isCall :
    IsCall [] (moving (.command 0x0300#16 :: .core :: .command 0x0700#16 :: rdigestWords.map Move.command)) ∧
    ¬IsCall [] { moving (.command 0x0300#16 :: rdigestWords.map Move.command) with len := 1#64 } ∧
    ¬IsCall [] (moving [.command 0x0100#16, .command 0x0300#16]) := by
  refine ⟨.inr ⟨rfl, rfl, by decide⟩, ?_, ?_⟩ <;> unfold IsCall <;> decide

theorem test_witness_StopsOutsideTheRules :
    small.cap ≤ (padding .pad80 64#64 0#64 0#6).len.toNat ∧ small.cap ≤ (padding .padz 3#64 64#64 0#6).pp.toNat ∧
    7 < (padding .padl 3#64 56#64 8#6).t.toNat ∧ 15 < (padding .ldw 3#64 64#64 16#6).t.toNat ∧
    (padding .exp 3#64 64#64 15#6).t.toNat < 16 ∧
    (small.t.toNat ≤ 15 ∧ 64 * small.blk.toNat + 4 * small.t.toNat + 4 ≤ small.cap ∧
      mbGet small.mb (64 * small.blk.toNat + 4 * small.t.toNat) = none) := by decide

end Sys2Proof.Tests
end

section
/-! PROOFS. The control invariant of 10_state.md R44 and R45, phase by phase: what `CoreInv` says in each group of
phases, as an equivalence to read it by and to prove it by. -/

namespace Sys2Proof.Machine

/-! ## The two parts every phase shares -/

/-- The part of the invariant about `CAP` and the buffer (R6, R60, R69). -/
structure BufferOk (cap : Nat) (mb : List Host.Cell) : Prop where
  capLegal : Config.CapLegal cap
  canonical : Memory.wf mb
  inside : ∀ c ∈ mb, c.1 < cap

/-- `PLEN` holds the padded length of the message, and it fits the buffer (R34, R45). -/
structure PlenLatched (cap : Nat) (len plen : Count) : Prop where
  wholeBlocks : plen.toNat % 64 = 0
  holdsTrailer : len.toNat + 9 ≤ plen.toNat
  fits : plen.toNat ≤ cap
  least : plen.toNat < len.toNat + 73

theorem CoreInv.bufferOk {s : State} (h : CoreInv s) : BufferOk s.cap s.mb :=
  ⟨h.capLegal, h.mbCanonical, h.mbInside⟩

/-- A store below `CAP` keeps the buffer in order. -/
theorem BufferOk.store {cap a : Nat} {mb : List Host.Cell} (h : BufferOk cap mb) (ha : a < cap) (b : Byte) :
    BufferOk cap (mbPut mb a b) :=
  ⟨h.capLegal, mbPut_wf h.canonical a b, mbPut_inside h.inside ha⟩

/-- A store just above the bytes written extends them by one. -/
theorem written_mbPut {m : List Host.Cell} {n : Nat} (h : Written m n) (b : Byte) : Written (mbPut m n b) (n + 1) := by
  intro a ha
  rw [mbGet_mbPut]
  split
  · rfl
  · exact h a (by omega)

/-- No count up to a latched `PLEN` is near the end of 64 bits (R7). -/
theorem plen_lt_two_pow {cap : Nat} {mb : List Host.Cell} {len plen : Count} (hb : BufferOk cap mb)
    (hl : PlenLatched cap len plen) : plen.toNat < 2 ^ 63 := by
  obtain ⟨-, -, hcap⟩ := hb.capLegal
  have := hl.fits
  omega

/-! ## The invariant in each group of phases -/

/-- In `IDLE` and `ERROR` no computation is under way: only `LEN` and the bytes below it count. -/
theorem coreInv_loading_iff {s : State} (hp : s.phase = .idle ∨ s.phase = .error) :
    CoreInv s ↔ BufferOk s.cap s.mb ∧ s.len.toNat ≤ s.cap ∧ s.plen = 0#64 ∧ s.pp = 0#64 ∧ s.blk = 0#64 ∧
      s.t = 0#6 ∧ (s.ecode ≠ .none ↔ s.phase = .error) ∧ Written s.mb s.len.toNat := by
  have hT : TInRange s ↔ s.t = 0#6 := by rcases hp with hp | hp <;> simp [TInRange, hp]
  have hP : PadPointerInPlace s ↔ s.pp = 0#64 := by rcases hp with hp | hp <;> simp [PadPointerInPlace, hp]
  have hB : BlockInPlace s ↔ s.blk = 0#64 := by rcases hp with hp | hp <;> simp [BlockInPlace, hp]
  have hW : BytesWritten s ↔ Written s.mb s.len.toNat := by rcases hp with hp | hp <;> simp [BytesWritten, hp]
  constructor
  · intro h
    exact ⟨h.bufferOk, h.lenBound, h.plenZero.mpr hp, hP.mp h.padPointer, hB.mp h.blockPlace, hT.mp h.tInRange,
      h.ecodeError, hW.mp h.written⟩
  · rintro ⟨⟨hcap, hwf, hin⟩, hlen, hplen, hpp, hblk, ht, he, hw⟩
    exact ⟨hcap, hwf, hin, hlen, .inl hplen, ⟨fun _ => hp, fun _ => hplen⟩, by simp [hpp], by simp [hblk], he,
      hT.mpr ht, hP.mpr hpp, hB.mpr hblk, hW.mpr hw⟩

/-- Where `PP` is puts it at or below a latched `PLEN` (R45). -/
theorem padPointer_le_plen {s : State} (hl : PlenLatched s.cap s.len s.plen) (ht : TInRange s)
    (hp : PadPointerInPlace s) : s.pp.toNat ≤ s.plen.toNat := by
  cases hph : s.phase with
  | idle | error => simp only [PadPointerInPlace, hph] at hp; simp [hp]
  | pad80 =>
    simp only [PadPointerInPlace, hph] at hp
    have := hl.holdsTrailer
    rw [hp]; omega
  | padz => simp only [PadPointerInPlace, hph] at hp; omega
  | padl => simp only [PadPointerInPlace, TInRange, hph] at hp ht; omega
  | ldiv | ldw | exp | ldv | rnd | fold | done => simp only [PadPointerInPlace, hph] at hp; rw [hp]

/-- Where `BLK` is puts it at or below the last block (R45). -/
theorem block_le_plen {s : State} (hb : BlockInPlace s) : 64 * s.blk.toNat ≤ s.plen.toNat := by
  cases hph : s.phase with
  | idle | error | pad80 | padz | padl | ldiv => simp only [BlockInPlace, hph] at hb; simp [hb]
  | ldw | exp | ldv | rnd | fold => simp only [BlockInPlace, hph] at hb; omega
  | done => simp only [BlockInPlace, hph] at hb; omega

/-- In every other phase `PLEN` is latched and there is no error; the bounds of R45 on `PP` and `BLK` follow from
their places. -/
theorem coreInv_latched_iff {s : State} (hi : s.phase ≠ .idle) (he : s.phase ≠ .error) :
    CoreInv s ↔ BufferOk s.cap s.mb ∧ PlenLatched s.cap s.len s.plen ∧ s.ecode = .none ∧
      TInRange s ∧ PadPointerInPlace s ∧ BlockInPlace s ∧ BytesWritten s := by
  have hno : ¬(s.phase = .idle ∨ s.phase = .error) := by simp [hi, he]
  constructor
  · intro h
    obtain hz | ⟨h0, h1, h2, h3⟩ := h.plenForm
    · exact absurd (h.plenZero.mp hz) hno
    · exact ⟨h.bufferOk, ⟨h0, h1, h2, h3⟩, not_not.mp (mt h.ecodeError.mp he), h.tInRange, h.padPointer,
        h.blockPlace, h.written⟩
  · rintro ⟨⟨hcap, hwf, hin⟩, ⟨h0, h1, h2, h3⟩, hc, ht, hp, hb, hw⟩
    have hne : s.plen ≠ 0#64 := by rintro hz; simp [hz] at h1
    have hpp := padPointer_le_plen ⟨h0, h1, h2, h3⟩ ht hp
    have hblk := block_le_plen hb
    exact ⟨hcap, hwf, hin, by omega, .inr ⟨h0, h1, h2, h3⟩, by simp [hne, hi, he], hpp, hblk, by simp [hc, he], ht,
      hp, hb, hw⟩

theorem coreInv_pad80_iff {s : State} (hp : s.phase = .pad80) :
    CoreInv s ↔ BufferOk s.cap s.mb ∧ PlenLatched s.cap s.len s.plen ∧ s.ecode = .none ∧
      s.t = 0#6 ∧ s.pp = s.len ∧ s.blk = 0#64 ∧ Written s.mb s.len.toNat := by
  simp [coreInv_latched_iff, hp, TInRange, PadPointerInPlace, BlockInPlace, BytesWritten]

theorem coreInv_padz_iff {s : State} (hp : s.phase = .padz) :
    CoreInv s ↔ BufferOk s.cap s.mb ∧ PlenLatched s.cap s.len s.plen ∧ s.ecode = .none ∧
      s.t = 0#6 ∧ (s.len.toNat + 1 ≤ s.pp.toNat ∧ s.pp.toNat + 8 < s.plen.toNat) ∧ s.blk = 0#64 ∧
      Written s.mb s.pp.toNat := by
  simp [coreInv_latched_iff, hp, TInRange, PadPointerInPlace, BlockInPlace, BytesWritten]

theorem coreInv_padl_iff {s : State} (hp : s.phase = .padl) :
    CoreInv s ↔ BufferOk s.cap s.mb ∧ PlenLatched s.cap s.len s.plen ∧ s.ecode = .none ∧
      s.t.toNat ≤ 7 ∧ s.pp.toNat + 8 = s.plen.toNat + s.t.toNat ∧ s.blk = 0#64 ∧ Written s.mb s.pp.toNat := by
  simp [coreInv_latched_iff, hp, TInRange, PadPointerInPlace, BlockInPlace, BytesWritten]

theorem coreInv_ldiv_iff {s : State} (hp : s.phase = .ldiv) :
    CoreInv s ↔ BufferOk s.cap s.mb ∧ PlenLatched s.cap s.len s.plen ∧ s.ecode = .none ∧
      s.t = 0#6 ∧ s.pp = s.plen ∧ s.blk = 0#64 ∧ Written s.mb s.plen.toNat := by
  simp [coreInv_latched_iff, hp, TInRange, PadPointerInPlace, BlockInPlace, BytesWritten]

theorem coreInv_done_iff {s : State} (hp : s.phase = .done) :
    CoreInv s ↔ BufferOk s.cap s.mb ∧ PlenLatched s.cap s.len s.plen ∧ s.ecode = .none ∧
      s.t = 0#6 ∧ s.pp = s.plen ∧ 64 * s.blk.toNat = s.plen.toNat ∧ Written s.mb s.plen.toNat := by
  simp [coreInv_latched_iff, hp, TInRange, PadPointerInPlace, BlockInPlace, BytesWritten]

/-- The five phases in which a block is compressed (R199). -/
def inBlock (p : Phase) : Bool :=
  match p with
  | .ldw | .exp | .ldv | .rnd | .fold => true
  | .idle | .pad80 | .padz | .padl | .ldiv | .done | .error => false

/-- While a block is compressed only the range of `T` depends on the phase. -/
theorem coreInv_inBlock_iff {s : State} (hp : inBlock s.phase = true) :
    CoreInv s ↔ BufferOk s.cap s.mb ∧ PlenLatched s.cap s.len s.plen ∧ s.ecode = .none ∧
      TInRange s ∧ s.pp = s.plen ∧ 64 * s.blk.toNat < s.plen.toNat ∧ Written s.mb s.plen.toNat := by
  cases h : s.phase with
  | ldw | exp | ldv | rnd | fold => simp [coreInv_latched_iff, h, PadPointerInPlace, BlockInPlace, BytesWritten]
  | idle | pad80 | padz | padl | ldiv | done | error => simp [h, inBlock] at hp

/-! ## The invariant at the start of a call -/

/-- Clearing the control registers over a buffer in order gives the invariant, whatever they held (R216, R270). -/
theorem coreInv_clearControl {s : State} (h : BufferOk s.cap s.mb) : CoreInv (clearControl s) :=
  (coreInv_loading_iff (.inl rfl)).mpr
    ⟨h, Nat.zero_le _, rfl, rfl, rfl, rfl, by simp, fun a ha => absurd ha (Nat.not_lt_zero a)⟩

/-- A buffer that lists nothing is in order. -/
theorem bufferOk_nil {cap : Nat} (h : Config.CapLegal cap) : BufferOk cap [] := ⟨h, .nil, by simp⟩

/-- The RESET event gives the invariant over any legal `CAP`: it clears control over an unwritten buffer (R270). -/
theorem coreInv_resetCore {s : State} (h : Config.CapLegal s.cap) : CoreInv (resetCore s) :=
  coreInv_clearControl (s := { resetCore s with mb := [] }) (bufferOk_nil h)

theorem capLegal_reset : Config.CapLegal State.reset.cap := by decide

end Sys2Proof.Machine
end

section
/-! PROOFS. What a command can do to the state, in every phase (45_host_commands.md). -/

namespace Sys2Proof.Machine

/-- Everything a host command can do to the state: only answer, return to `IDLE`, enter `ERROR`, append a byte, or
start a computation (R215 to R223). -/
inductive CommandEffect (s : State) : State → Prop
  | answered (rc : RespCode) (data : Word) : CommandEffect s (respond rc data s)
  | cleared (hp : busy s.phase = false) : CommandEffect s (respondOk 0#32 (clearControl s))
  | failed (hp : s.phase = .idle) (e : ErrorCode) (he : e ≠ .none) : CommandEffect s (raiseRes e s)
  | pushed (hp : s.phase = .idle) (hlt : s.len.toNat < s.cap) (b : Byte) :
      CommandEffect s (respondOk 0#32 { s with mb := mbPut s.mb s.len.toNat b, len := s.len + 1#64 })
  | started (hp : s.phase = .idle) (hfit : plenOf s.len.toNat ≤ s.cap) :
      CommandEffect s (respondOk 0#32
        (setSeq .pad80 0#64 0#6 { s with plen := BitVec.ofNat 64 (plenOf s.len.toNat), pp := s.len }))

/-- A refusal is an answer and nothing else (R241). -/
theorem commandEffect_raiseIf (c : IfCause) (s : State) : CommandEffect s (raiseIf c s) :=
  .answered .errIf (ifSub c)

theorem commandEffect_respondOk (data : Word) (s : State) : CommandEffect s (respondOk data s) :=
  .answered .ok data

/-- A command that answers a next state had one of the effects. -/
theorem exec_commandEffect {i : Instr} {s t : State} (hi : i.isCommand = true) (h : exec i s = .next t) :
    CommandEffect s t := by
  cases i with
  | nop imm =>
    rcases execNop_next h with ⟨_, rfl⟩ | ⟨_, rfl⟩
    · exact commandEffect_raiseIf _ s
    · exact commandEffect_respondOk _ s
  | clr imm =>
    rcases execClr_next h with ⟨_, rfl⟩ | ⟨_, _, rfl⟩ | ⟨_, hp, rfl⟩
    · exact commandEffect_raiseIf _ s
    · exact commandEffect_raiseIf _ s
    · exact .cleared hp
  | push b =>
    rcases execPush_next h with ⟨_, rfl⟩ | ⟨hp, _, rfl⟩ | ⟨hp, hlt, rfl⟩
    · exact commandEffect_raiseIf _ s
    · exact .failed hp _ (by decide)
    · exact .pushed hp hlt b
  | start imm =>
    rcases execStart_next h with ⟨_, rfl⟩ | ⟨_, _, rfl⟩ | ⟨_, hp, _, rfl⟩ | ⟨_, hp, hfit, rfl⟩
    · exact commandEffect_raiseIf _ s
    · exact commandEffect_raiseIf _ s
    · exact .failed hp _ (by decide)
    · exact .started hp hfit
  | rdw i =>
    rcases execRdw_next h with ⟨_, rfl⟩ | ⟨_, _, rfl⟩ | ⟨_, _, rfl⟩
    · exact commandEffect_raiseIf _ s
    · exact commandEffect_raiseIf _ s
    · exact commandEffect_respondOk _ s
  | rdb j =>
    rcases execRdb_next h with ⟨_, rfl⟩ | ⟨_, _, rfl⟩ | ⟨_, _, rfl⟩
    · exact commandEffect_raiseIf _ s
    · exact commandEffect_raiseIf _ s
    · exact commandEffect_respondOk _ s
  | rdx j =>
    rcases execRdx_next h with ⟨_, rfl⟩ | ⟨_, _, rfl⟩ | ⟨_, _, rfl⟩
    · exact commandEffect_raiseIf _ s
    · exact commandEffect_raiseIf _ s
    · exact commandEffect_respondOk _ s
  | rds imm =>
    rcases execRds_next h with ⟨_, rfl⟩ | ⟨_, rfl⟩
    · exact commandEffect_raiseIf _ s
    · exact commandEffect_respondOk _ s
  | pad80 | padz | padl | ldiv | ldw | exp | ldv | rnd | fold => cases hi

/-- A host step, of a legal word or an illegal one, had one of the effects. -/
theorem hostStep_commandEffect {cw : CommandWord} {s t : State} (h : hostStep cw s = .next t) : CommandEffect s t := by
  rcases hostStep_next h with ⟨r, _, rfl⟩ | ⟨i, hi, hx⟩
  · exact commandEffect_raiseIf _ s
  · exact exec_commandEffect (decodeCommand_isCommand hi) hx

/-- While the core is busy a command can only be answered (R29, R223). -/
theorem CommandEffect.answered_of_busy {s t : State} (h : CommandEffect s t) (hb : busy s.phase = true) :
    ∃ rc data, t = respond rc data s := by
  cases h with
  | answered rc data => exact ⟨rc, data, rfl⟩
  | cleared hp => simp [hp] at hb
  | failed hp | pushed hp | started hp => simp [hp] at hb

/-- No command changes `CAP` or writes the datapath registers (R225). -/
theorem CommandEffect.datapath {s t : State} (h : CommandEffect s t) :
    t.cap = s.cap ∧ t.h = s.h ∧ t.v = s.v ∧ t.w = s.w := by
  cases h <;> exact ⟨rfl, rfl, rfl, rfl⟩

/-! ## Commands keep the invariant -/

/-- A refused `PUSH` or `START` keeps the invariant: only the phase and `ECODE` change, together (R242). -/
theorem coreInv_raiseRes {s : State} (h : CoreInv s) (hp : s.phase = .idle) {e : ErrorCode} (he : e ≠ .none) :
    CoreInv (raiseRes e s) := by
  obtain ⟨hb, hlen, hplen, hpp, hblk, ht, -, hw⟩ := (coreInv_loading_iff (.inl hp)).mp h
  exact (coreInv_loading_iff (.inr rfl)).mpr ⟨hb, hlen, hplen, hpp, hblk, ht, by simp [he], hw⟩

/-- An accepted `PUSH` keeps the invariant: the byte goes just above those written (R217). -/
theorem coreInv_push {s : State} (h : CoreInv s) (hp : s.phase = .idle) (hlt : s.len.toNat < s.cap) (b : Byte) :
    CoreInv { s with mb := mbPut s.mb s.len.toNat b, len := s.len + 1#64 } := by
  obtain ⟨hb, -, hplen, hpp, hblk, ht, he, hw⟩ := (coreInv_loading_iff (.inl hp)).mp h
  have hlen : (s.len + 1#64).toNat = s.len.toNat + 1 := count_succ (by have := hb.capLegal; omega)
  exact (coreInv_loading_iff (.inl (by exact hp))).mpr
    ⟨hb.store hlt b, hlen.le.trans hlt, hplen, hpp, hblk, ht, he, hlen ▸ written_mbPut hw b⟩

/-- An accepted `START` keeps the invariant: it latches the padded length, which fits (R218). -/
theorem coreInv_start {s : State} (h : CoreInv s) (hp : s.phase = .idle) (hfit : plenOf s.len.toNat ≤ s.cap) :
    CoreInv (setSeq .pad80 0#64 0#6 { s with plen := BitVec.ofNat 64 (plenOf s.len.toNat), pp := s.len }) := by
  obtain ⟨hb, -, -, -, -, -, he, hw⟩ := (coreInv_loading_iff (.inl hp)).mp h
  have hplen : (BitVec.ofNat 64 (plenOf s.len.toNat)).toNat = plenOf s.len.toNat := by
    have := hb.capLegal
    rw [BitVec.toNat_ofNat, Nat.mod_eq_of_lt (by omega)]
  obtain ⟨h0, h1, h2⟩ := plenOf_bounds s.len.toNat
  have hl : PlenLatched s.cap s.len (BitVec.ofNat 64 (plenOf s.len.toNat)) := by
    constructor <;> rw [hplen] <;> assumption
  exact (coreInv_pad80_iff rfl).mpr ⟨hb, hl, by simpa [hp] using he, rfl, rfl, rfl, hw⟩

theorem CommandEffect.keeps_coreInv {s t : State} (h : CommandEffect s t) (hs : CoreInv s) : CoreInv t := by
  cases h with
  | answered rc data => exact coreInv_respond rc data hs
  | cleared => exact coreInv_respond _ _ (coreInv_clearControl hs.bufferOk)
  | failed hp e he => exact coreInv_raiseRes hs hp he
  | pushed hp hlt b => exact coreInv_respond _ _ (coreInv_push hs hp hlt b)
  | started hp hfit => exact coreInv_respond _ _ (coreInv_start hs hp hfit)

end Sys2Proof.Machine
end

section
/-! PROOFS. Each micro-operation, run in its own phase, keeps the control invariant (10_state.md R45, R68). -/

namespace Sys2Proof.Machine

/-! ## The conditions of the sequencer on naturals (R143, R144, R179) -/

theorem zerosFollowMarker_iff (s : State) : zerosFollowMarker s = true ↔ s.len.toNat + 1 + 8 < s.plen.toNat := by
  simp only [zerosFollowMarker, decide_eq_true_eq]; omega

theorem lastZeroByte_iff (s : State) : lastZeroByte s = true ↔ s.pp.toNat + 1 + 8 = s.plen.toNat := by
  simp only [lastZeroByte, decide_eq_true_eq]; omega

theorem lastBlock_iff (s : State) : lastBlock s = true ↔ 64 * (s.blk.toNat + 1) = s.plen.toNat :=
  decide_eq_true_iff

/-! ## The padding phases -/

theorem coreInv_execPad80 {s t : State} (h : CoreInv s) (hp : s.phase = .pad80) (hx : execPad80 s = .next t) :
    CoreInv t := by
  obtain ⟨hcap, rfl⟩ := execPad80_next hx
  obtain ⟨hb, hl, he, -, -, hblk, hw⟩ := (coreInv_pad80_iff hp).mp h
  have htrail := hl.holdsTrailer
  have hpp : (s.len + 1#64).toNat = s.len.toNat + 1 := count_succ (by have := plen_lt_two_pow hb hl; omega)
  have hw' : Written (mbPut s.mb s.len.toNat 0x80#8) (s.len + 1#64).toNat := hpp ▸ written_mbPut hw _
  by_cases hz : zerosFollowMarker s = true
  · have hroom := (zerosFollowMarker_iff s).mp hz
    exact (coreInv_padz_iff (by simp [hz])).mpr
      ⟨hb.store hcap _, hl, he, rfl, ⟨hpp.ge, by dsimp only; omega⟩, hblk, hw'⟩
  · have hroom := mt (zerosFollowMarker_iff s).mpr hz
    exact (coreInv_padl_iff (by simp [hz])).mpr
      ⟨hb.store hcap _, hl, he, Nat.zero_le _, by simp only [hpp, BitVec.toNat_ofNat]; omega, hblk, hw'⟩

theorem coreInv_execPadz {s t : State} (h : CoreInv s) (hp : s.phase = .padz) (hx : execPadz s = .next t) :
    CoreInv t := by
  obtain ⟨hcap, rfl⟩ := execPadz_next hx
  obtain ⟨hb, hl, he, ht, ⟨hlo, hhi⟩, hblk, hw⟩ := (coreInv_padz_iff hp).mp h
  have hpp : (s.pp + 1#64).toNat = s.pp.toNat + 1 := count_succ (by have := plen_lt_two_pow hb hl; omega)
  have hw' : Written (mbPut s.mb s.pp.toNat 0x00#8) (s.pp + 1#64).toNat := hpp ▸ written_mbPut hw _
  by_cases hz : lastZeroByte s = true
  · have hlast := (lastZeroByte_iff s).mp hz
    exact (coreInv_padl_iff (by simp [hz])).mpr
      ⟨hb.store hcap _, hl, he, by simp [ht], by simp only [hpp, ht, BitVec.toNat_ofNat]; omega, hblk, hw'⟩
  · have hmore := mt (lastZeroByte_iff s).mpr hz
    exact (coreInv_padz_iff (by simp [hz, hp])).mpr
      ⟨hb.store hcap _, hl, he, ht, by dsimp only; omega, hblk, hw'⟩

theorem coreInv_execPadl {s t : State} (h : CoreInv s) (hp : s.phase = .padl) (hx : execPadl s = .next t) :
    CoreInv t := by
  obtain ⟨-, hcap, rfl⟩ := execPadl_next hx
  obtain ⟨hb, hl, he, ht, hplace, hblk, hw⟩ := (coreInv_padl_iff hp).mp h
  have hpp : (s.pp + 1#64).toNat = s.pp.toNat + 1 := count_succ (by have := plen_lt_two_pow hb hl; omega)
  have hw' : Written (mbPut s.mb s.pp.toNat (trailerByte s)) (s.pp + 1#64).toNat := hpp ▸ written_mbPut hw _
  by_cases h7 : s.t = 7#6
  · have hend : s.pp + 1#64 = s.plen := BitVec.eq_of_toNat_eq (by rw [h7] at hplace; simp at hplace; omega)
    exact (coreInv_ldiv_iff (by simp [h7])).mpr ⟨hb.store hcap _, hl, he, by simp [h7], hend, hblk, hend ▸ hw'⟩
  · have hlt : s.t.toNat ≠ 7 := mt (t_eq_iff (by decide)).mpr h7
    have ht' : (s.t + 1#6).toNat = s.t.toNat + 1 := t_succ (by omega)
    exact (coreInv_padl_iff (by simp [h7, hp])).mpr
      ⟨hb.store hcap _, hl, he, by simp only [h7, if_false]; omega, by simp only [h7, if_false]; omega, hblk, hw'⟩

/-! ## The phases of a block -/

theorem coreInv_execLdiv {s t : State} (h : CoreInv s) (hp : s.phase = .ldiv) (hx : execLdiv s = .next t) :
    CoreInv t := by
  obtain rfl := execLdiv_next hx
  obtain ⟨hb, hl, he, -, hpp, -, hw⟩ := (coreInv_ldiv_iff hp).mp h
  have hpos : 0 < s.plen.toNat := by have := hl.holdsTrailer; omega
  exact (coreInv_inBlock_iff rfl).mpr ⟨hb, hl, he, Nat.zero_le _, hpp, hpos, hw⟩

/-- Within a block only `V`, `W`, `T` and the phase change, so the range of `T` is all there is to show. -/
theorem coreInv_withinBlock {s : State} (h : CoreInv s) (hs : inBlock s.phase = true) {v : Vector Word 8}
    {w : Vector Word 64} {n : BitVec 6} {p : Phase} (hp : inBlock p = true)
    (ht : TInRange { s with v := v, w := w, t := n, phase := p }) :
    CoreInv { s with v := v, w := w, t := n, phase := p } := by
  obtain ⟨hb, hl, he, -, hpp, hblk, hw⟩ := (coreInv_inBlock_iff hs).mp h
  exact (coreInv_inBlock_iff (by exact hp)).mpr ⟨hb, hl, he, ht, hpp, hblk, hw⟩

theorem coreInv_execLdw {s t : State} (h : CoreInv s) (hp : s.phase = .ldw) (hx : execLdw s = .next t) :
    CoreInv t := by
  obtain ⟨ht, x, -, rfl⟩ := execLdw_next hx
  have ht' : (s.t + 1#6).toNat = s.t.toNat + 1 := t_succ (by omega)
  refine coreInv_withinBlock h (by simp [hp, inBlock]) (by split <;> simp [hp, inBlock]) ?_
  by_cases h15 : s.t = 15#6
  · simp [TInRange, h15]
  · have : s.t.toNat ≠ 15 := mt (t_eq_iff (by decide)).mpr h15
    simp only [TInRange, h15, if_false, hp]
    omega

theorem coreInv_execExp {s t : State} (h : CoreInv s) (hp : s.phase = .exp) (hx : execExp s = .next t) :
    CoreInv t := by
  obtain ⟨ht, rfl⟩ := execExp_next hx
  refine coreInv_withinBlock h (by simp [hp, inBlock]) (by split <;> simp [hp, inBlock]) ?_
  by_cases h63 : s.t = 63#6
  · simp [TInRange, h63]
  · have : s.t.toNat ≠ 63 := mt (t_eq_iff (by decide)).mpr h63
    have ht' : (s.t + 1#6).toNat = s.t.toNat + 1 := t_succ (by omega)
    simp only [TInRange, h63, if_false, hp]
    omega

theorem coreInv_execLdv {s t : State} (h : CoreInv s) (hp : s.phase = .ldv) (hx : execLdv s = .next t) :
    CoreInv t := by
  obtain rfl := execLdv_next hx
  exact coreInv_withinBlock h (by simp [hp, inBlock]) rfl trivial

theorem coreInv_execRnd {s t : State} (h : CoreInv s) (hp : s.phase = .rnd) (hx : execRnd s = .next t) :
    CoreInv t := by
  obtain rfl := execRnd_next hx
  refine coreInv_withinBlock h (by simp [hp, inBlock]) (by split <;> simp [hp, inBlock]) ?_
  by_cases h63 : s.t = 63#6 <;> simp [TInRange, h63, hp]

theorem coreInv_execFold {s t : State} (h : CoreInv s) (hp : s.phase = .fold) (hx : execFold s = .next t) :
    CoreInv t := by
  obtain rfl := execFold_next hx
  obtain ⟨hb, hl, he, -, hpp, hblk, hw⟩ := (coreInv_inBlock_iff (by simp [hp, inBlock])).mp h
  have hblk' : (s.blk + 1#64).toNat = s.blk.toNat + 1 := count_succ (by have := plen_lt_two_pow hb hl; omega)
  by_cases hz : lastBlock s = true
  · have hlast := (lastBlock_iff s).mp hz
    exact (coreInv_done_iff (by simp [hz])).mpr ⟨hb, hl, he, rfl, hpp, by dsimp only; omega, hw⟩
  · have hmore : 64 * (s.blk.toNat + 1) < s.plen.toNat := by
      have := mt (lastBlock_iff s).mpr hz
      have := hl.wholeBlocks
      omega
    exact (coreInv_inBlock_iff (by simp [hz, inBlock])).mpr
      ⟨hb, hl, he, by simp [TInRange, hz], hpp, by dsimp only; omega, hw⟩

/-! ## Every agent's step -/

/-- A core step keeps the invariant, whichever micro-operation the phase selects. -/
theorem coreInv_coreStep {s t : State} (h : CoreInv s) (hx : coreStep s = .next t) : CoreInv t := by
  cases hp : s.phase <;> rw [coreStep_eq, hp] at hx
  case idle | done | error => cases hx; exact h
  case pad80 => exact coreInv_execPad80 h hp hx
  case padz => exact coreInv_execPadz h hp hx
  case padl => exact coreInv_execPadl h hp hx
  case ldiv => exact coreInv_execLdiv h hp hx
  case ldw => exact coreInv_execLdw h hp hx
  case exp => exact coreInv_execExp h hp hx
  case ldv => exact coreInv_execLdv h hp hx
  case rnd => exact coreInv_execRnd h hp hx
  case fold => exact coreInv_execFold h hp hx

/-- Settles O43: by the agent that moves, then by the effect of the command or the phase of the core. -/
theorem stepKeepsCoreInv : Obligations.StepKeepsCoreInv := by
  intro s t h hx
  rcases step_next hx with ⟨-, hx⟩ | ⟨cw, rest, -, hx⟩ | ⟨rest, -, hx⟩ | ⟨rest, -, rfl⟩
  · exact coreInv_coreStep h hx
  · exact (hostStep_commandEffect hx).keeps_coreInv (coreInv_setMoves rest h)
  · exact coreInv_coreStep (coreInv_setMoves rest h) hx
  · exact coreInv_resetCore h.capLegal

end Sys2Proof.Machine
end

section
/-! PROOFS. In a state that meets the control invariant every operation answers a next state (10_state.md R44,
20_memory.md R69). -/

namespace Sys2Proof.Machine

/-! ## Commands -/

/-- A checked command answers if it answers once its checks are passed (R246). -/
theorem guarded_answers {legal accepted : Bool} {s : State} {k : Result}
    (h : legal = true → accepted = true → ∃ t, k = .next t) : ∃ t, guarded legal accepted s k = .next t := by
  cases legal with
  | false => exact ⟨_, rfl⟩
  | true =>
    cases accepted with
    | false => exact ⟨_, rfl⟩
    | true => exact h rfl rfl

/-- `PUSH` answers when `LEN` is at most `CAP`: at `CAP` it is refused, below it the store is in range. -/
theorem execPush_answers {s : State} (hlen : s.len.toNat ≤ s.cap) (b : Byte) : ∃ t, execPush b s = .next t := by
  refine guarded_answers fun _ _ => ?_
  split
  · exact ⟨_, rfl⟩
  · rename_i hne
    rw [memWrite1_of_lt (by omega)]
    exact ⟨_, rfl⟩

theorem execStart_answers (imm : Byte) (s : State) : ∃ t, execStart imm s = .next t := by
  refine guarded_answers fun _ _ => ?_
  split <;> exact ⟨_, rfl⟩

theorem exec_command_answers {i : Instr} {s : State} (hi : i.isCommand = true) (hlen : s.len.toNat ≤ s.cap) :
    ∃ t, exec i s = .next t := by
  cases i with
  | push b => exact execPush_answers hlen b
  | start imm => exact execStart_answers imm s
  | nop | clr | rdw | rdb | rdx | rds => exact guarded_answers fun _ _ => ⟨_, rfl⟩
  | pad80 | padz | padl | ldiv | ldw | exp | ldv | rnd | fold => cases hi

theorem hostStep_answers {s : State} (hlen : s.len.toNat ≤ s.cap) (cw : CommandWord) :
    ∃ t, hostStep cw s = .next t := by
  unfold hostStep
  split
  · rename_i i hi
    exact exec_command_answers (decodeCommand_isCommand hi) hlen
  · exact ⟨_, rfl⟩

/-! ## Micro-operations -/

theorem execPad80_answers {s : State} (hlt : s.len.toNat < s.cap) : ∃ t, execPad80 s = .next t := by
  rw [execPad80, memWrite1_of_lt hlt]
  exact ⟨_, rfl⟩

theorem execPadz_answers {s : State} (hlt : s.pp.toNat < s.cap) : ∃ t, execPadz s = .next t := by
  rw [execPadz, memWrite1_of_lt hlt]
  exact ⟨_, rfl⟩

theorem execPadl_answers {s : State} (ht : s.t.toNat ≤ 7) (hlt : s.pp.toNat < s.cap) : ∃ t, execPadl s = .next t := by
  rw [execPadl, withinSteps_of _ (Nat.zero_le _) ht, memWrite1_of_lt hlt, andThen_ok]
  split <;> exact ⟨_, rfl⟩

/-- A word inside the written bytes can be read (R44, R69). -/
theorem memRead4_of_written {s : State} {a n : Nat} (hw : Written s.mb n) (ha : a + 4 ≤ n) (hn : n ≤ s.cap) :
    ∃ x, memRead4 s a = .ok x := by
  obtain ⟨b0, h0⟩ := Option.isSome_iff_exists.mp (hw a (by omega))
  obtain ⟨b1, h1⟩ := Option.isSome_iff_exists.mp (hw (a + 1) (by omega))
  obtain ⟨b2, h2⟩ := Option.isSome_iff_exists.mp (hw (a + 2) (by omega))
  obtain ⟨b3, h3⟩ := Option.isSome_iff_exists.mp (hw (a + 3) (by omega))
  exact ⟨_, (memRead4_ok_iff ..).mpr ⟨by omega, b0, b1, b2, b3, h0, h1, h2, h3, rfl⟩⟩

theorem execLdw_answers {s : State} {n : Nat} (ht : s.t.toNat ≤ 15) (hw : Written s.mb n)
    (ha : blockWordAddr s + 4 ≤ n) (hn : n ≤ s.cap) : ∃ t, execLdw s = .next t := by
  obtain ⟨x, hx⟩ := memRead4_of_written hw ha hn
  rw [execLdw, withinSteps_of _ (Nat.zero_le _) ht, hx]
  exact ⟨_, rfl⟩

theorem execExp_answers {s : State} (ht : 16 ≤ s.t.toNat) : ∃ t, execExp s = .next t := by
  rw [execExp, withinSteps_of _ ht (by omega)]
  exact ⟨_, rfl⟩

/-- A core step answers: each phase gives its micro-operation the range of `T` and the addresses it needs. -/
theorem coreStep_answers {s : State} (h : CoreInv s) : ∃ t, coreStep s = .next t := by
  rw [coreStep_eq]
  cases hp : s.phase with
  | idle | done | error => exact ⟨_, rfl⟩
  | pad80 =>
    obtain ⟨-, hl, -⟩ := (coreInv_pad80_iff hp).mp h
    exact execPad80_answers (by have := hl.holdsTrailer; have := hl.fits; omega)
  | padz =>
    obtain ⟨-, hl, -, -, ⟨-, hpp⟩, -⟩ := (coreInv_padz_iff hp).mp h
    exact execPadz_answers (by have := hl.fits; omega)
  | padl =>
    obtain ⟨-, hl, -, ht, hpp, -⟩ := (coreInv_padl_iff hp).mp h
    exact execPadl_answers ht (by have := hl.fits; omega)
  | ldw =>
    obtain ⟨-, hl, -, ht, -, hblk, hw⟩ := (coreInv_inBlock_iff (by simp [hp, inBlock])).mp h
    have ht : s.t.toNat ≤ 15 := by simpa [TInRange, hp] using ht
    have := hl.wholeBlocks
    exact execLdw_answers ht hw (by rw [blockWordAddr]; omega) hl.fits
  | exp => exact execExp_answers (by simpa [TInRange, hp] using h.tInRange)
  | ldiv | ldv | rnd | fold => exact ⟨_, rfl⟩

/-- Settles O44: by the agent that moves. -/
theorem coreInvStatesNeverStop : Obligations.CoreInvStatesNeverStop := by
  intro s h
  rcases hm : s.moves with _ | ⟨⟨cw⟩ | _ | _, rest⟩
  · rw [step_of_moves_nil hm]
    exact coreStep_answers h
  · rw [step_of_command hm]
    exact hostStep_answers (s := setMoves rest s) h.lenBound cw
  · rw [step_of_core hm]
    exact coreStep_answers (coreInv_setMoves rest h)
  · exact ⟨resetCore (setMoves rest s), by simp [step, systemStep, hm]⟩

end Sys2Proof.Machine
end

section
/-! PROOFS. What commands leave alone, the micro-operation of each phase, and the state after reset (10_state.md R28,
R29, R43, R47). -/

namespace Sys2Proof.Machine

/-- Settles O33: in each case `CLR` or `START` answers by updates of control registers alone. -/
theorem clrAndStartFrame : Obligations.ClrAndStartFrame := by
  rintro i imm s t (rfl | rfl) hx
  · rcases execClr_next hx with ⟨-, rfl⟩ | ⟨-, -, rfl⟩ | ⟨-, -, rfl⟩ <;> simp
  · rcases execStart_next hx with ⟨-, rfl⟩ | ⟨-, -, rfl⟩ | ⟨-, -, -, rfl⟩ | ⟨-, -, -, rfl⟩ <;> simp

/-- Settles O48: of the effects of a command only an answer is possible in a busy phase. -/
theorem hostCannotDisturbBusyCore : Obligations.HostCannotDisturbBusyCore := by
  intro s t cw rest hm hb hx
  rw [step_of_command hm] at hx
  obtain ⟨rc, data, rfl⟩ := (hostStep_commandEffect hx).answered_of_busy hb
  exact ⟨⟨rc, data⟩, rfl⟩

/-- No micro-operation changes `CAP`. -/
theorem exec_microOp_cap {i : Instr} {s t : State} (hi : i.isCommand = false) (hx : exec i s = .next t) :
    t.cap = s.cap := by
  cases i with
  | pad80 => obtain ⟨-, rfl⟩ := execPad80_next hx; rfl
  | padz => obtain ⟨-, rfl⟩ := execPadz_next hx; rfl
  | padl => obtain ⟨-, -, rfl⟩ := execPadl_next hx; rfl
  | ldiv => obtain rfl := execLdiv_next hx; rfl
  | ldw => obtain ⟨-, x, -, rfl⟩ := execLdw_next hx; rfl
  | exp => obtain ⟨-, rfl⟩ := execExp_next hx; rfl
  | ldv => obtain rfl := execLdv_next hx; rfl
  | rnd => obtain rfl := execRnd_next hx; rfl
  | fold => obtain rfl := execFold_next hx; rfl
  | nop | clr | push | start | rdw | rdb | rdx | rds => cases hi

/-- The core runs micro-operations only, never a command. -/
theorem isCommand_of_microOpOf {p : Phase} {i : Instr} (h : microOpOf p = some i) : i.isCommand = false := by
  cases p <;> cases h <;> rfl

theorem coreStep_cap {s t : State} (hx : coreStep s = .next t) : t.cap = s.cap := by
  rcases coreStep_next hx with ⟨i, hi, hx⟩ | ⟨-, rfl⟩
  · exact exec_microOp_cap (isCommand_of_microOpOf hi) hx
  · rfl

/-- Settles O51: a command's effect keeps the datapath registers and `CAP`, and neither a core step nor a RESET
changes `CAP`. -/
theorem commandsNeverWriteDatapath : Obligations.CommandsNeverWriteDatapath := by
  intro s t hx
  rcases step_next hx with ⟨hm, hx⟩ | ⟨cw, rest, -, hx⟩ | ⟨rest, hm, hx⟩ | ⟨rest, hm, rfl⟩
  · exact ⟨coreStep_cap hx, by simp [hm]⟩
  · obtain ⟨hcap, hdata⟩ := (hostStep_commandEffect hx).datapath
    exact ⟨hcap, fun _ _ _ => hdata⟩
  · exact ⟨coreStep_cap (s := setMoves rest s) hx, by simp [hm]⟩
  · exact ⟨rfl, by simp [hm]⟩

/-- Settles O5: the named codes one by one, the reserved ones by their range. -/
theorem phaseSelectsMicroOperation : Obligations.PhaseSelectsMicroOperation :=
  ⟨rfl, rfl, rfl, rfl, rfl, rfl, rfl, rfl, rfl, rfl, rfl, rfl, by decide, phaseOfCode_phaseCode⟩

/-- `PHASE` selects a micro-operation exactly when the core is busy (R29, R99). -/
theorem decodePhase_ok_iff_busy (p : Phase) : (∃ i, decodePhase (phaseCode p) = .ok i) ↔ busy p = true := by
  cases p <;> simp [decodePhase, phaseCode]

/-- Taking the moves already listed changes nothing. -/
theorem setMoves_self {s : State} {l : List Move} (h : s.moves = l) : setMoves l s = s := by subst h; rfl

/-- A turn of the core, listed or by default, is a core step with that move taken off. -/
theorem step_of_coreTurn {s : State} {rest : List Move} (h : s.moves = .core :: rest ∨ (s.moves = [] ∧ rest = [])) :
    step s = coreStep (setMoves rest s) := by
  rcases h with h | ⟨h, rfl⟩
  · exact step_of_core h
  · rw [step_of_moves_nil h, setMoves_self h]

/-- Settles O39: a turn of the core is `coreStep`, which runs what `PHASE` decodes to. -/
theorem coreMoveRunsSelectedMicroOp : Obligations.CoreMoveRunsSelectedMicroOp := by
  intro s rest hm
  rw [step_of_coreTurn hm]
  refine ⟨fun i hi => ?_, decodePhase_ok_iff_busy s.phase, coreStep_of_not_busy (s := setMoves rest s)⟩
  simp only [coreStep, setMoves_phase, hi]
  rfl

/-- Settles O41: each register by its value in `State.reset`; the first step is a turn of the idle core. -/
theorem resetStateValues : Obligations.ResetStateValues :=
  ⟨rfl, rfl, rfl, rfl, rfl, rfl, rfl, by decide, capLegal_reset, rfl,
    (step_of_moves_nil rfl).trans (coreStep_of_not_busy rfl)⟩

/-- Settles O42: the state after reset is one with cleared control registers over an unwritten buffer. -/
theorem coreInvAtReset : Obligations.CoreInvAtReset :=
  coreInv_clearControl (s := State.reset) (bufferOk_nil capLegal_reset)

/-- Settles O45: in `IDLE` the digest invariant asks for nothing. -/
theorem digestInvAtReset : Obligations.DigestInvAtReset := by
  have hidle : State.reset.phase = .idle := rfl
  simp only [Obligations.DigestInvAtReset, DigestInv, hidle]

end Sys2Proof.Machine
end

section
/-! PROOFS. The stores of the padding phases: what each leaves unchanged, and the eight trailer bytes together
(20_memory.md R62, R66). -/

namespace Sys2Proof.Machine

/-! ## The frame of a padding store -/

/-- A padding micro-operation stores one byte, at `LEN` or at `PP`, and moves `PP`, `T` and `PHASE` (R143 to R145). -/
theorem exec_padding_next {i : Instr} {s t : State} (hi : i = .pad80 ∨ i = .padz ∨ i = .padl)
    (hx : exec i s = .next t) :
    ∃ b pp n p, t = { s with
      mb := mbPut s.mb (if i = .pad80 then s.len.toNat else s.pp.toNat) b, pp := pp, t := n, phase := p } := by
  rcases hi with rfl | rfl | rfl
  · obtain ⟨-, rfl⟩ := execPad80_next hx
    exact ⟨_, _, _, _, rfl⟩
  · obtain ⟨-, rfl⟩ := execPadz_next hx
    exact ⟨_, _, _, _, rfl⟩
  · obtain ⟨-, -, rfl⟩ := execPadl_next hx
    exact ⟨_, _, _, _, rfl⟩

/-- Settles O35: the one store leaves every other byte, and no other register is named in the update. -/
theorem paddingFrame : Obligations.PaddingFrame := by
  intro i s t hi hx
  obtain ⟨b, pp, n, p, rfl⟩ := exec_padding_next hi hx
  refine ⟨fun h x hne => ?_, fun h x hne => ?_, rfl, rfl, rfl, rfl, rfl, rfl, rfl, rfl, rfl, rfl, rfl⟩
  · exact mbGet_mbPut_other _ _ (by rwa [if_pos h])
  · exact mbGet_mbPut_other _ _ (by rwa [if_neg h])

/-! ## The eight bytes of the length trailer -/

@[simp] theorem beBytes_length (x : Count) : (beBytes x).length = 8 := rfl

theorem beBytes_getElem (x : Count) {k : Nat} (h : k < (beBytes x).length) : (beBytes x)[k] = byteOfCount x k := by
  rw [beBytes_length] at h
  interval_cases k <;> rfl

/-- From step `T` on, the first byte still to store is the trailer byte of that step (R145). -/
theorem beBytes_drop_step {s : State} (h : s.t.toNat < 8) :
    (beBytes (bitLength s)).drop s.t.toNat = trailerByte s :: (beBytes (bitLength s)).drop (s.t.toNat + 1) := by
  rw [List.drop_eq_getElem_cons (by rwa [beBytes_length]), beBytes_getElem, trailerByte]

/-- A turn of the core in `PADL` inside the ranges of R145. -/
theorem step_padl {s : State} (hm : s.moves = []) (hp : s.phase = .padl) (ht : s.t.toNat ≤ 7)
    (hcap : s.pp.toNat < s.cap) :
    step s = .next { s with
      mb := mbPut s.mb s.pp.toNat (trailerByte s), pp := s.pp + 1#64,
      t := if s.t = 7#6 then 0#6 else s.t + 1#6, phase := if s.t = 7#6 then .ldiv else .padl } := by
  obtain ⟨t, hx⟩ := execPadl_answers ht hcap
  have hstep : step s = execPadl s := by rw [step_of_moves_nil hm, coreStep_eq, hp]; rfl
  obtain ⟨-, -, rfl⟩ := execPadl_next hx
  rw [hstep, hx, hp]

/-- The `PADL` steps that remain at step `T` store the bytes of `8 * LEN` that remain, consecutively from `PP`. -/
theorem runSteps_padl {n : Nat} {s : State} (hm : s.moves = []) (hp : s.phase = .padl) (ht : s.t.toNat + n = 7)
    (hcap : s.pp.toNat + (n + 1) ≤ s.cap) (hlegal : Config.CapLegal s.cap) :
    runSteps (n + 1) s = .next { s with
      mb := mbPutList s.mb s.pp.toNat ((beBytes (bitLength s)).drop s.t.toNat),
      pp := s.pp + BitVec.ofNat 64 (n + 1), t := 0#6, phase := .ldiv } := by
  induction n generalizing s with
  | zero =>
    have h7 : s.t = 7#6 := (t_eq_iff (by decide)).mpr ht
    rw [runSteps_one (step_padl hm hp (by omega) (by omega)), beBytes_drop_step (by omega)]
    simp [h7, beBytes, mbPutList]
  | succ n ih =>
    have h7 : s.t ≠ 7#6 := mt (t_eq_iff (by decide)).mp (by omega)
    have hstep := step_padl hm hp (by omega) (by omega)
    simp only [if_neg h7] at hstep
    have hpp : (s.pp + 1#64).toNat = s.pp.toNat + 1 := count_succ (by omega)
    have ht' : (s.t + 1#6).toNat = s.t.toNat + 1 := t_succ (by omega)
    have hadvance : s.pp + 1#64 + BitVec.ofNat 64 (n + 1) = s.pp + BitVec.ofNat 64 (1 + (n + 1)) := by
      rw [BitVec.add_assoc, ← BitVec.ofNat_add]
    rw [Nat.add_comm (n + 1) 1, runSteps_trans _ (runSteps_one hstep), ih]
    · rw [beBytes_drop_step (s := s) (by omega), mbPutList]
      simp only [hpp, ht', hadvance]
      rfl
    · exact hm
    · rfl
    · simp only [ht']; omega
    · simp only [hpp]; omega
    · exact hlegal

/-- Settles O25: the steps that remain at `T = 0` are all eight, and they store all eight bytes. -/
theorem eightTrailerStepsAreOneWrite : Obligations.EightTrailerStepsAreOneWrite := by
  intro s hm hp ht hcap hlegal
  refine ⟨_, _, runSteps_padl (n := 7) hm hp (by simp [ht]) hcap hlegal, memWrite8_of_le hcap _, ?_⟩
  rw [ht]
  rfl

end Sys2Proof.Machine
end

section
/-! PROOFS. The two formats of 30_encoding.md: the decoders against the encoder, and what each code decodes to. -/

namespace Sys2Proof

/-! ## The opcode map read in both directions (R94, R99) -/

/-- Every operation's code agrees with its row of the opcode table. -/
theorem tableRow_statement (i : Instr) : Laws.TableRow.Statement i := by
  cases i with
  | nop imm => exact Laws.TableRow.nop imm
  | clr imm => exact Laws.TableRow.clr imm
  | push b => exact Laws.TableRow.push b
  | start imm => exact Laws.TableRow.start imm
  | rdw k => exact Laws.TableRow.rdw k
  | rdb j => exact Laws.TableRow.rdb j
  | rdx j => exact Laws.TableRow.rdx j
  | rds imm => exact Laws.TableRow.rds imm
  | pad80 => exact Laws.TableRow.pad80
  | padz => exact Laws.TableRow.padz
  | padl => exact Laws.TableRow.padl
  | ldiv => exact Laws.TableRow.ldiv
  | ldw => exact Laws.TableRow.ldw
  | exp => exact Laws.TableRow.exp
  | ldv => exact Laws.TableRow.ldv
  | rnd => exact Laws.TableRow.rnd
  | fold => exact Laws.TableRow.fold

/-- A row of R94 applies to a command's word exactly when its operand is legal. -/
theorem rowApplies_iff_wellFormed {i : Instr} {cw : CommandWord} (h : encode i = .cmd16 cw) :
    commandRows.any (rowApplies · cw) = true ↔ i.WellFormed := by
  have hrow := tableRow_statement i
  simp only [Laws.TableRow.Statement, h] at hrow
  obtain ⟨-, hlegal, -⟩ := hrow
  exact hlegal.symm

/-- An operation with a `PHASE` code has no operand that could be out of range (R99). -/
theorem wellFormed_of_encode_phase4 {i : Instr} {p : BitVec 4} (h : encode i = .phase4 p) : i.WellFormed := by
  have hrow := tableRow_statement i
  simp only [Laws.TableRow.Statement, h] at hrow
  obtain ⟨-, hwf, -⟩ := hrow
  exact hwf

/-- The command that the fields of a word name is the one the word encodes, its operand legal or not. -/
theorem encode_of_commandOf {cw : CommandWord} {i : Instr} (h : commandOf (opField cw) (immField cw) = some i) :
    encode i = .cmd16 cw := by
  rw [← commandWord_fields cw]
  simp only [commandOf] at h
  split at h
  case h_9 => cases h
  all_goals
    rename_i hop
    cases h
    exact congrArg (fun op => Code.cmd16 (commandWord op (immField cw))) (BitVec.eq_of_toNat_eq hop.symm)

/-- The fields of a command's word name that command. -/
theorem commandOf_of_encode {cw : CommandWord} {i : Instr} (h : encode i = .cmd16 cw) :
    commandOf (opField cw) (immField cw) = some i := by
  cases i with
  | nop | clr | push | start | rdw | rdb | rdx | rds =>
    cases h
    rw [commandWord, opField_append, immField_append]
    rfl
  | pad80 | padz | padl | ldiv | ldw | exp | ldv | rnd | fold => cases h

/-- A `PHASE` code that selects a micro-operation is its code. -/
theorem encode_of_decodePhase {p : BitVec 4} {i : Instr} (h : decodePhase p = .ok i) : encode i = .phase4 p := by
  have hall : ∀ q : BitVec 4, ∀ j ∈ (decodePhase q).toOption, encode j = .phase4 q := by decide
  exact hall p i (by rw [h]; rfl)

/-- The code of a micro-operation selects it. -/
theorem decodePhase_of_encode {p : BitVec 4} {i : Instr} (h : encode i = .phase4 p) : decodePhase p = .ok i := by
  cases i with
  | pad80 | padz | padl | ldiv | ldw | exp | ldv | rnd | fold => cases h; rfl
  | nop | clr | push | start | rdw | rdb | rdx | rds => cases h

/-! ## The command decoder (R96, R97, R98) -/

/-- The word of a command decodes to it, or is `illegal(2)` when its operand is out of range. -/
theorem decodeCommand_of_encode {cw : CommandWord} {i : Instr} (h : encode i = .cmd16 cw) :
    decodeCommand cw = if i.WellFormed then .ok i else .error .operandRange := by
  simp only [decodeCommand, commandOf_of_encode h, rowApplies_iff_wellFormed h]

/-- A reserved opcode is `illegal(1)`, whatever the operand. -/
theorem decodeCommand_of_reserved {cw : CommandWord} (h : 8 ≤ (opField cw).toNat) :
    decodeCommand cw = .error .reservedOpcode := by
  have hnone : commandOf (opField cw) (immField cw) = none := by
    unfold commandOf
    split
    case h_9 => rfl
    all_goals omega
  simp only [decodeCommand, hnone]

/-! ## The decoder of both formats -/

/-- The code of an operation decodes to it, unless its operand is out of range. -/
theorem decode_encode (i : Instr) :
    decode (encode i) = if i.WellFormed then .ok i else .error (.command .operandRange) := by
  cases h : encode i with
  | cmd16 cw =>
    rw [decode, decodeCommand_of_encode h]
    split <;> rfl
  | phase4 p =>
    rw [decode, decodePhase_of_encode h, if_pos (wellFormed_of_encode_phase4 h)]
    rfl

theorem ok_of_mapError {ε ε' : Type} {f : ε → ε'} {x : Except ε Instr} {i : Instr} (h : x.mapError f = .ok i) :
    x = .ok i := by
  cases x <;> cases h
  rfl

/-- A code that decodes is the code of what it decodes to. -/
theorem encode_of_decode {c : Code} {i : Instr} (h : decode c = .ok i) : encode i = c := by
  cases c with
  | cmd16 cw => exact encode_of_commandOf (commandOf_of_decodeCommand (ok_of_mapError h))
  | phase4 p => exact encode_of_decodePhase (ok_of_mapError h)

/-- Settles O1: a well-formed operation takes the first branch of `decode_encode`. -/
theorem decodeOfEncode : Obligations.DecodeOfEncode := fun i hi => (decode_encode i).trans (if_pos hi)

/-- Settles O2: the code is the operation's own, and an ill-formed operation's code does not decode. -/
theorem encodeOfDecode : Obligations.EncodeOfDecode := by
  intro c i h
  have hc := encode_of_decode h
  refine ⟨hc, ?_⟩
  by_contra hwf
  rw [← hc, decode_encode, if_neg hwf] at h
  cases h

/-- Settles O3: the reserved opcodes by their range, each defined opcode as the code of its command. -/
theorem commandWordsClassified : Obligations.CommandWordsClassified := by
  intro op imm
  refine ⟨fun h => decodeCommand_of_reserved (by rwa [opField_append]), ?_, ?_, ?_, ?_, ?_, ?_, ?_, ?_⟩ <;> rintro rfl
  · exact (decodeCommand_of_encode (i := .nop imm) rfl).trans (if_congr beq_iff_eq rfl rfl)
  · exact (decodeCommand_of_encode (i := .clr imm) rfl).trans (if_congr beq_iff_eq rfl rfl)
  · exact decodeCommand_of_encode (i := .push imm) rfl
  · exact (decodeCommand_of_encode (i := .start imm) rfl).trans (if_congr beq_iff_eq rfl rfl)
  · exact (decodeCommand_of_encode (i := .rdw imm) rfl).trans (if_congr decide_eq_true_iff rfl rfl)
  · exact (decodeCommand_of_encode (i := .rdb imm) rfl).trans (if_congr decide_eq_true_iff rfl rfl)
  · exact (decodeCommand_of_encode (i := .rdx imm) rfl).trans (if_congr decide_eq_true_iff rfl rfl)
  · exact (decodeCommand_of_encode (i := .rds imm) rfl).trans (if_congr beq_iff_eq rfl rfl)

/-- Settles O4: the written-out words, decoded. -/
theorem sampleWordsDecode : Obligations.SampleWordsDecode := by
  unfold Obligations.SampleWordsDecode
  decide

end Sys2Proof
end

section
/-! PROOFS. The command port: a decoded command runs, an illegal one is refused, and each is answered once
(30_encoding.md R91, R96 to R98; 60_exceptions.md R246). -/

namespace Sys2Proof.Machine

/-! ## A command move -/

theorem step_of_decoded {s : State} {cw : CommandWord} {rest : List Move} {i : Instr}
    (hm : s.moves = .command cw :: rest) (hd : decodeCommand cw = .ok i) : step s = exec i (setMoves rest s) := by
  rw [step_of_command hm, hostStep, hd]

theorem step_of_illegal {s : State} {cw : CommandWord} {rest : List Move} {r : IllegalCommand}
    (hm : s.moves = .command cw :: rest) (hd : decodeCommand cw = .error r) :
    step s = .next (raiseIf (illegalCause r) (setMoves rest s)) := by
  rw [step_of_command hm, hostStep, hd]

/-- Settles O38: the host's step on a word that decodes. -/
theorem stepRunsDecodedCommand : Obligations.StepRunsDecodedCommand := fun _ _ _ _ hm hd => step_of_decoded hm hd

/-! ## Operands out of range -/

/-- The first check of every command is that its operand is legal (R246). -/
theorem exec_command_guarded {i : Instr} (hi : i.isCommand = true) (s : State) :
    ∃ accepted k, exec i s = guarded i.operandLegal accepted s k := by
  cases i with
  | nop | clr | push | start | rdw | rdb | rdx | rds => exact ⟨_, _, rfl⟩
  | pad80 | padz | padl | ldiv | ldw | exp | ldv | rnd | fold => cases hi

/-- Settles O20: an illegal operand fails the first check. -/
theorem illFormedOperandRefused : Obligations.IllFormedOperandRefused := by
  intro i s hi hwf
  obtain ⟨accepted, k, hx⟩ := exec_command_guarded hi s
  rw [hx, Bool.eq_false_of_not_eq_true hwf, guarded_illegal]
  rfl

/-! ## Illegal words, by the numbers of their fields -/

theorem opField_toNat (cw : CommandWord) : (opField cw).toNat = cw.toNat / 256 := by
  have := cw.isLt
  simp [opField, Nat.shiftRight_eq_div_pow]
  omega

theorem immField_toNat (cw : CommandWord) : (immField cw).toNat = cw.toNat % 256 := by
  simp [immField]

/-- A word that names a command with an operand out of range is `illegal(2)` (R98). -/
theorem decodeCommand_of_illFormed {cw : CommandWord} {i : Instr}
    (h : commandOf (opField cw) (immField cw) = some i) (hwf : ¬i.WellFormed) :
    decodeCommand cw = .error .operandRange :=
  (decodeCommand_of_encode (encode_of_commandOf h)).trans (if_neg hwf)

/-- Settles O21: the opcode field decides the command, the operand field whether it is legal. -/
theorem illegalWordsRefused : Obligations.IllegalWordsRefused := by
  intro s cw rest hm
  rw [← opField_toNat, ← immField_toNat]
  refine ⟨fun h => step_of_illegal hm (decodeCommand_of_reserved h), fun h => ?_⟩
  have hcmd : ∃ i, commandOf (opField cw) (immField cw) = some i ∧ ¬i.WellFormed := by
    rcases h with ⟨hop | hop | hop | hop, himm⟩ | ⟨hop, himm⟩ | ⟨hop, himm⟩ | ⟨hop, himm⟩ <;>
      simpa [commandOf, hop, Instr.operandLegal, ← BitVec.toNat_inj] using himm
  obtain ⟨i, hi, hwf⟩ := hcmd
  exact step_of_illegal hm (decodeCommand_of_illFormed hi hwf)

/-! ## Responses -/

/-- Whatever its effect, a command is answered exactly once (R91, R92). -/
theorem CommandEffect.one_response {s t : State} (h : CommandEffect s t) : ∃ r, t.responses = s.responses ++ [r] := by
  cases h <;> exact ⟨_, rfl⟩

/-- No micro-operation answers the host. -/
theorem exec_microOp_responses {i : Instr} {s t : State} (hi : i.isCommand = false) (hx : exec i s = .next t) :
    t.responses = s.responses := by
  cases i with
  | pad80 | padz | padl => obtain ⟨_, _, _, _, rfl⟩ := exec_padding_next (by simp) hx; rfl
  | ldiv => obtain rfl := execLdiv_next hx; rfl
  | ldw => obtain ⟨-, x, -, rfl⟩ := execLdw_next hx; rfl
  | exp => obtain ⟨-, rfl⟩ := execExp_next hx; rfl
  | ldv => obtain rfl := execLdv_next hx; rfl
  | rnd => obtain rfl := execRnd_next hx; rfl
  | fold => obtain rfl := execFold_next hx; rfl
  | nop | clr | push | start | rdw | rdb | rdx | rds => cases hi

theorem coreStep_responses {s t : State} (hx : coreStep s = .next t) : t.responses = s.responses := by
  rcases coreStep_next hx with ⟨i, hi, hx⟩ | ⟨-, rfl⟩
  · exact exec_microOp_responses (isCommand_of_microOpOf hi) hx
  · rfl

/-- Settles O50: by the move taken; only a command's effect has a response. -/
theorem oneResponsePerCommand : Obligations.OneResponsePerCommand := by
  intro s t hx
  rcases step_next hx with ⟨hm, hx⟩ | ⟨cw, rest, hm, hx⟩ | ⟨rest, hm, hx⟩ | ⟨rest, hm, rfl⟩
  · exact ⟨by simp [hm], fun _ => coreStep_responses hx⟩
  · exact ⟨fun _ _ _ => (hostStep_commandEffect hx).one_response, fun hne => absurd hm (hne cw rest)⟩
  · exact ⟨by simp [hm], fun _ => coreStep_responses (s := setMoves rest s) hx⟩
  · exact ⟨by simp [hm], fun _ => rfl⟩

end Sys2Proof.Machine
end

section
/-! PROOFS. Rotation, shift, choice and majority bit by bit, and a word as bytes and nibbles (40_arithmetic.md R122 to
R131). -/

namespace Sys2Proof.Machine

/-! ## Rotation and shift (R122, R123) -/

theorem shr_toNat (x : Word) (n : Nat) : (shr x n).toNat = x.toNat / 2 ^ n := by
  simp [shr, Nat.shiftRight_eq_div_pow]

/-- The low `n` bits of a word, moved to the top; the others are shifted out. -/
theorem toNat_shiftLeft_compl (x : Word) {n : Nat} (hn : n ≤ 32) :
    (x <<< (32 - n)).toNat = (x.toNat % 2 ^ n) <<< (32 - n) := by
  have hsplit : 2 ^ 32 = 2 ^ n * 2 ^ (32 - n) := by rw [← pow_add, Nat.add_sub_cancel' hn]
  rw [BitVec.toNat_shiftLeft, Nat.shiftLeft_eq, Nat.shiftLeft_eq, hsplit, Nat.mul_mod_mul_right]

/-- R122 as a sum: the high part fills the bits below `32 - n` and the low part those above, so "or" adds them. -/
theorem rotr_toNat (x : Word) {n : Nat} (hn : n < 32) :
    (rotr x n).toNat = x.toNat / 2 ^ n + (x.toNat % 2 ^ n) * 2 ^ (32 - n) := by
  have hhigh : x.toNat >>> n < 2 ^ (32 - n) := by
    rw [Nat.shiftRight_eq_div_pow, Nat.div_lt_iff_lt_mul (by positivity), ← pow_add, Nat.sub_add_cancel hn.le]
    exact x.isLt
  calc (rotr x n).toNat = (x >>> n ||| x <<< (32 - n)).toNat := by
        rw [rotr, BitVec.rotateRight_def, Nat.mod_eq_of_lt hn]
    _ = (x.toNat % 2 ^ n) <<< (32 - n) ||| x.toNat >>> n := by
        rw [BitVec.toNat_or, toNat_shiftLeft_compl x hn.le, BitVec.toNat_ushiftRight, Nat.lor_comm]
    _ = (x.toNat % 2 ^ n) <<< (32 - n) + x.toNat >>> n := (Nat.shiftLeft_add_eq_or_of_lt hhigh _).symm
    _ = _ := by rw [Nat.shiftLeft_eq, Nat.shiftRight_eq_div_pow, Nat.add_comm]

/-- R122 bit by bit: bit `i` comes from `n` places above it, or wraps around to the bottom. -/
theorem rotr_getLsbD (x : Word) {n i : Nat} (hn : n < 32) (hi : i < 32) :
    (rotr x n).getLsbD i = x.getLsbD ((i + n) % 32) := by
  rw [rotr, BitVec.getLsbD_rotateRight, Nat.mod_eq_of_lt hn]
  by_cases hlow : i < 32 - n
  · rw [show (i + n) % 32 = n + i by omega]
    simp [hlow]
  · rw [show (i + n) % 32 = i - (32 - n) by omega]
    simp [hlow, hi]

/-- Settles O6: the formula and the bits of a rotation, and the formula of a shift. -/
theorem rotationAndShift : Obligations.RotationAndShift := fun x n =>
  ⟨fun _ hn => ⟨rotr_toNat x (Nat.lt_succ_of_le hn), fun _ => rotr_getLsbD x (Nat.lt_succ_of_le hn)⟩, shr_toNat x n⟩

/-! ## Choice and majority (R129, R130) -/

theorem ch_getLsbD (e f g : Word) (i : Nat) :
    (ch e f g).getLsbD i = if e.getLsbD i then f.getLsbD i else g.getLsbD i := by
  by_cases hi : i < 32
  · simp only [ch, BitVec.getLsbD_xor, BitVec.getLsbD_and, BitVec.getLsbD_not, hi, decide_true, Bool.true_and]
    cases e.getLsbD i <;> simp
  · simp [BitVec.getLsbD_of_ge, Nat.le_of_not_lt hi]

theorem maj_getLsbD (a b c : Word) (i : Nat) : (maj a b c).getLsbD i =
    ((a.getLsbD i && b.getLsbD i) || (a.getLsbD i && c.getLsbD i) || (b.getLsbD i && c.getLsbD i)) := by
  simp only [maj, BitVec.getLsbD_xor, BitVec.getLsbD_and]
  cases a.getLsbD i <;> cases b.getLsbD i <;> cases c.getLsbD i <;> rfl

/-! ## Bytes and nibbles of a word (R131) -/

theorem byteOfWord_toNat (x : Word) (k : Nat) : (byteOfWord x k).toNat = x.toNat / 2 ^ (8 * (3 - k)) % 256 := by
  simp [byteOfWord, Nat.shiftRight_eq_div_pow]

theorem nibbleOfWord_toNat (x : Word) (k : Nat) : (nibbleOfWord x k).toNat = x.toNat / 2 ^ (4 * (7 - k)) % 16 := by
  simp [nibbleOfWord, Nat.shiftRight_eq_div_pow]

/-- Appending a byte below a value is one step of Horner's rule in base 256. -/
theorem toNat_append_byte {w : Nat} (x : BitVec w) (b : Byte) : (x ++ b).toNat = x.toNat * 2 ^ 8 + b.toNat := by
  rw [BitVec.toNat_append, ← Nat.shiftLeft_add_eq_or_of_lt b.isLt, Nat.shiftLeft_eq]

theorem be32_toNat (b0 b1 b2 b3 : Byte) : (be32 b0 b1 b2 b3).toNat =
    b0.toNat * 2 ^ 24 + b1.toNat * 2 ^ 16 + b2.toNat * 2 ^ 8 + b3.toNat := by
  simp only [be32, toNat_append_byte]
  ring

/-- The bytes of an assembled word, by dividing its weighted sum; each byte is below 256. -/
theorem byteOfWord_be32 (b0 b1 b2 b3 : Byte) :
    byteOfWord (be32 b0 b1 b2 b3) 0 = b0 ∧ byteOfWord (be32 b0 b1 b2 b3) 1 = b1 ∧
    byteOfWord (be32 b0 b1 b2 b3) 2 = b2 ∧ byteOfWord (be32 b0 b1 b2 b3) 3 = b3 := by
  have h0 := b0.isLt
  have h1 := b1.isLt
  have h2 := b2.isLt
  have h3 := b3.isLt
  simp only [← BitVec.toNat_inj, byteOfWord_toNat, be32_toNat]
  omega

/-- Settles O7: the six functions by definition, the rest by the lemmas above. -/
theorem bitwiseFunctionsAndBytes : Obligations.BitwiseFunctionsAndBytes :=
  ⟨fun _ => ⟨rfl, rfl, rfl, rfl⟩, fun _ _ _ => ⟨rfl, rfl⟩, ch_getLsbD, maj_getLsbD,
    fun b0 b1 b2 b3 => ⟨be32_toNat b0 b1 b2 b3, byteOfWord_be32 b0 b1 b2 b3⟩,
    fun x k _ => byteOfWord_toNat x k, fun x k _ => nibbleOfWord_toNat x k⟩

end Sys2Proof.Machine
end

section
/-! PROOFS. The padded message and the message schedule as functions: the padded length, the padded bytes one by one,
and the schedule words (41_preprocessor.md R140, R141, 42_schedule_expander.md R160, R161). -/

namespace Sys2Proof.Machine

/-! ## The padded length -/

/-- Settles O8: from the closed form of the padded length. -/
theorem paddedLengthAndCapacity : Obligations.PaddedLengthAndCapacity := by
  intro L
  have hclosed := plenOf_eq L
  refine ⟨hclosed, by omega, by omega, by omega, fun h => by omega, fun h => by omega, ?_⟩
  rintro cap ⟨hcap, -, -⟩
  omega

/-! ## The padded bytes -/

/-- A byte of the 64-bit length is that byte of the exact length: no shift of R145 reaches above bit 63. -/
theorem byteOfCount_ofNat (n k : Nat) : byteOfCount (BitVec.ofNat 64 n) k = BitVec.ofNat 8 (n >>> (8 * (7 - k))) := by
  ext i hi
  have : 8 * (7 - k) + i < 64 := by omega
  simp [byteOfCount, ← BitVec.getLsbD_eq_getElem, BitVec.getLsbD_ofNat, hi, this]

theorem padByte_message {M : List Byte} {x : Nat} (h : x < M.length) : padByte M x = M[x] := by
  rw [padByte, dif_pos h]

theorem padByte_marker (M : List Byte) : padByte M M.length = 0x80#8 := by
  simp [padByte]

theorem padByte_zero {M : List Byte} {x : Nat} (h1 : M.length < x) (h2 : x + 8 < plenOf M.length) :
    padByte M x = 0x00#8 := by
  rw [padByte, dif_neg (by omega), if_neg (by omega), if_pos (by omega)]

/-- In the last eight places stands the big-endian length. -/
theorem padByte_trailer {M : List Byte} {x k : Nat} (hx : x + 8 = plenOf M.length + k) :
    padByte M x = byteOfCount (BitVec.ofNat 64 (8 * M.length)) k := by
  obtain ⟨-, hroom, -⟩ := plenOf_bounds M.length
  rw [padByte, dif_neg (by omega), if_neg (by omega), if_neg (by omega), byteOfCount_ofNat,
    show plenOf M.length - 1 - x = 7 - k by omega]

/-- What padding puts after the message (R141). -/
def padTail (L : Nat) : List Byte :=
  0x80#8 :: (List.replicate (plenOf L - L - 9) 0x00#8 ++ beBytes (BitVec.ofNat 64 (8 * L)))

theorem pad_eq (M : List Byte) : pad M = M ++ padTail M.length := by
  simp [pad, padTail]

theorem padTail_length (L : Nat) : (padTail L).length = plenOf L - L := by
  obtain ⟨-, hroom, -⟩ := plenOf_bounds L
  simp only [padTail, List.length_cons, List.length_append, List.length_replicate, beBytes_length]
  omega

theorem pad_length (M : List Byte) : (pad M).length = plenOf M.length := by
  obtain ⟨-, hroom, -⟩ := plenOf_bounds M.length
  rw [pad_eq, List.length_append, padTail_length]
  omega

/-- Each byte of the padded message is the one the table of R141 gives. -/
theorem pad_getElem? (M : List Byte) {x : Nat} (h : x < plenOf M.length) : (pad M)[x]? = some (padByte M x) := by
  obtain ⟨-, hroom, -⟩ := plenOf_bounds M.length
  rw [pad_eq]
  rcases Nat.lt_trichotomy x M.length with hx | rfl | hx
  · rw [List.getElem?_append_left hx, List.getElem?_eq_getElem hx, padByte_message hx]
  · rw [List.getElem?_append_right le_rfl, Nat.sub_self, padByte_marker]
    rfl
  · obtain ⟨j, rfl⟩ : ∃ j, x = M.length + (j + 1) := ⟨x - M.length - 1, by omega⟩
    rw [List.getElem?_append_right (by omega), Nat.add_sub_cancel_left, padTail, List.getElem?_cons_succ]
    by_cases hz : j < plenOf M.length - M.length - 9
    · rw [List.getElem?_append_left (by simpa using hz), List.getElem?_replicate_of_lt hz, padByte_zero hx (by omega)]
    · rw [List.getElem?_append_right (by simpa using hz), List.length_replicate,
        List.getElem?_eq_getElem (by rw [beBytes_length]; omega), beBytes_getElem, padByte_trailer]
      omega

/-- Settles O9: the length and the bytes of the padded message. -/
theorem paddingByteByByte : Obligations.PaddingByteByByte := fun M => ⟨pad_length M, fun _ => pad_getElem? M⟩

/-- Byte `i` of block `k` of the padded message. -/
theorem blockOf_pad (M : List Byte) {k i : Nat} (hi : i < 64) (h : 64 * k + i < plenOf M.length) :
    (blockOf (pad M) k)[i] = padByte M (64 * k + i) := by
  simp [blockOf, List.getD_eq_getElem?_getD, pad_getElem? M h]

/-! ## The schedule words -/

/-- Later schedule words leave the earlier ones as they are. -/
theorem scheduleUpTo_getElem_of_le (B : Block) {i m n : Nat} (hi : i < m) (hmn : m ≤ n) :
    (scheduleUpTo B n)[i] = (scheduleUpTo B m)[i] := by
  induction n, hmn using Nat.le_induction with
  | base => rfl
  | succ n hmn ih =>
    rw [← ih]
    simp only [scheduleUpTo]
    split <;> exact Vector.getElem_push_lt (by omega)

theorem schedule_getElem (B : Block) {i n : Nat} (hi : i < n) (hn : n ≤ 64) :
    (schedule B)[i] = (scheduleUpTo B n)[i] :=
  scheduleUpTo_getElem_of_le B hi hn

/-- The first sixteen schedule words are the block's (R160). -/
theorem schedule_block (B : Block) {i : Nat} (h : i < 16) : (schedule B)[i] = blockWord B i h := by
  rw [schedule_getElem B (Nat.lt_succ_self i) (by omega)]
  simp [scheduleUpTo, h]

/-- Every later schedule word comes from the earlier ones (R161). -/
theorem schedule_expand (B : Block) {i : Nat} (h : i < 64) (h16 : 16 ≤ i) :
    (schedule B)[i] =
      expandWord (schedule B)[i - 16] (schedule B)[i - 15] (schedule B)[i - 7] (schedule B)[i - 2] := by
  have hprev (d : Nat) (h1 : 1 ≤ d) (h2 : d ≤ i) : (schedule B)[i - d] = (scheduleUpTo B i)[i - d] :=
    schedule_getElem B (by omega) (by omega)
  rw [schedule_getElem B (Nat.lt_succ_self i) (by omega), hprev 16 (by omega) h16, hprev 15 (by omega) (by omega),
    hprev 7 (by omega) (by omega), hprev 2 (by omega) (by omega)]
  simp [scheduleUpTo, show ¬ i < 16 by omega]

end Sys2Proof.Machine
end

section
/-! PROOFS. Each micro-operation, and each command, keeps what the registers hold in terms of the SHA-256 functions
(41_preprocessor.md R147, 42_schedule_expander.md R164, 43_compressor.md R181, 44_digest_assembler.md R195, R200). -/

namespace Sys2Proof.Machine

/-! ## The digest invariant in each group of phases -/

/-- The first `n` words of `W` are those of the present block's schedule. -/
def ScheduledTo (s : State) (n : Nat) : Prop := ∀ i, (h : i < 64) → i < n → s.w[i] = (blockSchedule s)[i]

@[simp] theorem scheduledTo_zero (s : State) : ScheduledTo s 0 := fun i _ hi => absurd hi (Nat.not_lt_zero i)

theorem digestInv_loading {s : State} (hp : s.phase = .idle ∨ s.phase = .error ∨ s.phase = .pad80) :
    DigestInv s := by
  rcases hp with hp | hp | hp <;> simp [DigestInv, hp]

theorem digestInv_padding_iff {s : State} (hp : s.phase = .padz ∨ s.phase = .padl) :
    DigestInv s ↔ PaddedTo s s.pp.toNat := by
  rcases hp with hp | hp <;> simp only [DigestInv, hp]

theorem digestInv_ldiv_iff {s : State} (hp : s.phase = .ldiv) : DigestInv s ↔ PaddedTo s s.plen.toNat := by
  simp only [DigestInv, hp]

theorem digestInv_expanding_iff {s : State} (hp : s.phase = .ldw ∨ s.phase = .exp) :
    DigestInv s ↔ Chained s ∧ ScheduledTo s s.t.toNat := by
  rcases hp with hp | hp <;> simp only [DigestInv, hp, ScheduledTo]

theorem digestInv_ldv_iff {s : State} (hp : s.phase = .ldv) : DigestInv s ↔ Chained s ∧ s.w = blockSchedule s := by
  simp only [DigestInv, hp]

theorem digestInv_rnd_iff {s : State} (hp : s.phase = .rnd) :
    DigestInv s ↔ Chained s ∧ s.w = blockSchedule s ∧ s.v = roundsUpTo s.h s.w s.t.toNat := by
  simp only [DigestInv, hp]

theorem digestInv_fold_iff {s : State} (hp : s.phase = .fold) :
    DigestInv s ↔ Chained s ∧ s.w = blockSchedule s ∧ s.v = roundsUpTo s.h s.w 64 := by
  simp only [DigestInv, hp]

theorem digestInv_done_iff {s : State} (hp : s.phase = .done) :
    DigestInv s ↔ PaddedTo s s.plen.toNat ∧ s.h = sha256Words (message s) := by
  simp only [DigestInv, hp]

/-! ## The padding phases -/

/-- A latched `PLEN` is the padded length of the message. -/
theorem PlenLatched.plen_eq_plenOf {s : State} (h : PlenLatched s.cap s.len s.plen) :
    s.plen.toNat = plenOf (message s).length := by
  rw [message_length]
  exact eq_plenOf h.wholeBlocks h.holdsTrailer h.least

/-- The bytes pushed are the first of the padded message. -/
theorem paddedTo_len {s : State} (h : Written s.mb s.len.toNat) : PaddedTo s s.len.toNat := by
  intro x hx
  obtain ⟨b, hb⟩ := Option.isSome_iff_exists.mp (h x hx)
  rw [padByte_message (by rwa [message_length]), hb, ← List.getElem?_eq_getElem, message_getElem? s hx, hb]
  rfl

theorem bitLength_eq (s : State) : bitLength s = BitVec.ofNat 64 (8 * s.len.toNat) := by
  rw [BitVec.ofNat_mul, BitVec.ofNat_toNat, BitVec.setWidth_eq, bitLength]

/-- The trailer byte of a step is the padded message's byte at `PP` (R145). -/
theorem trailerByte_eq_padByte {s : State} (hl : PlenLatched s.cap s.len s.plen)
    (hpp : s.pp.toNat + 8 = s.plen.toNat + s.t.toNat) : trailerByte s = padByte (message s) s.pp.toNat := by
  rw [padByte_trailer (hl.plen_eq_plenOf ▸ hpp), message_length, ← bitLength_eq, trailerByte]

theorem digestInv_execPad80 {s t : State} (h : CoreInv s) (hp : s.phase = .pad80) (hx : execPad80 s = .next t) :
    DigestInv t := by
  obtain ⟨-, rfl⟩ := execPad80_next hx
  obtain ⟨hb, hl, -, -, -, -, hw⟩ := (coreInv_pad80_iff hp).mp h
  have hpp : (s.len + 1#64).toNat = s.len.toNat + 1 :=
    count_succ (by have := plen_lt_two_pow hb hl; have := hl.holdsTrailer; omega)
  refine (digestInv_padding_iff (by dsimp only; split <;> simp)).mpr (hpp ▸ ?_)
  refine paddedTo_succ (s := s) rfl le_rfl rfl (paddedTo_len hw) ?_
  rw [← message_length, padByte_marker]

theorem digestInv_execPadz {s t : State} (h : CoreInv s) (hd : DigestInv s) (hp : s.phase = .padz)
    (hx : execPadz s = .next t) : DigestInv t := by
  obtain ⟨-, rfl⟩ := execPadz_next hx
  obtain ⟨hb, hl, -, -, ⟨hlo, hhi⟩, -, -⟩ := (coreInv_padz_iff hp).mp h
  have hpad := (digestInv_padding_iff (.inl hp)).mp hd
  have hpp : (s.pp + 1#64).toNat = s.pp.toNat + 1 := count_succ (by have := plen_lt_two_pow hb hl; omega)
  refine (digestInv_padding_iff (by dsimp only; split <;> simp [hp])).mpr (hpp ▸ ?_)
  refine paddedTo_succ (s := s) rfl (by omega) rfl hpad (padByte_zero ?_ ?_).symm
  · rwa [message_length]
  · rwa [← hl.plen_eq_plenOf]

theorem digestInv_execPadl {s t : State} (h : CoreInv s) (hd : DigestInv s) (hp : s.phase = .padl)
    (hx : execPadl s = .next t) : DigestInv t := by
  have ht := coreInv_execPadl h hp hx
  obtain ⟨-, -, rfl⟩ := execPadl_next hx
  obtain ⟨hb, hl, -, hle, hplace, -, -⟩ := (coreInv_padl_iff hp).mp h
  have hpad := (digestInv_padding_iff (.inr hp)).mp hd
  have hpp : (s.pp + 1#64).toNat = s.pp.toNat + 1 := count_succ (by have := plen_lt_two_pow hb hl; omega)
  have htrail := hl.holdsTrailer
  have hpad' : PaddedTo { s with mb := mbPut s.mb s.pp.toNat (trailerByte s) } (s.pp + 1#64).toNat :=
    hpp ▸ paddedTo_succ (s := s) rfl (by omega) rfl hpad (trailerByte_eq_padByte hl hplace)
  by_cases h7 : s.t = 7#6
  · obtain ⟨-, -, -, -, hend, -⟩ := (coreInv_ldiv_iff (by simp [h7])).mp ht
    exact (digestInv_ldiv_iff (by simp [h7])).mpr (hend ▸ hpad')
  · exact (digestInv_padding_iff (by simp [h7, hp])).mpr hpad'

/-! ## The phases of a block -/

theorem digestInv_execLdiv {s t : State} (hd : DigestInv s) (hp : s.phase = .ldiv) (hx : execLdiv s = .next t) :
    DigestInv t := by
  obtain rfl := execLdiv_next hx
  exact (digestInv_expanding_iff (.inl rfl)).mpr
    ⟨⟨(digestInv_ldiv_iff hp).mp hd, rfl⟩, scheduledTo_zero _⟩

/-- Writing the right word at `T` extends the schedule in `W` by one. -/
theorem scheduledTo_putW {s : State} {x : Word} (h : ScheduledTo s s.t.toNat)
    (hx : x = (blockSchedule s)[s.t.toNat]'s.t.isLt) : ScheduledTo { s with w := putW s x } (s.t.toNat + 1) := by
  intro i hi hlt
  show (s.w.set s.t.toNat x s.t.isLt)[i] = (blockSchedule s)[i]
  rw [Vector.getElem_set]
  split
  · rename_i he; subst he; exact hx
  · exact h i hi (by omega)

/-- The word `LDW` reads is the block's schedule word at `T` (R61, R160, R162). -/
theorem memRead4_blockWord {s : State} {x : Word} (hl : PlenLatched s.cap s.len s.plen)
    (hpad : PaddedTo s s.plen.toNat) (hblk : 64 * s.blk.toNat < s.plen.toNat) (ht : s.t.toNat ≤ 15)
    (hx : memRead4 s (blockWordAddr s) = .ok x) : x = (blockSchedule s)[s.t.toNat]'s.t.isLt := by
  have hwhole := hl.wholeBlocks
  have hbyte (i : Nat) (hi : i < 64) :
      mbGet s.mb (64 * s.blk.toNat + i) = some (blockOf (pad (message s)) s.blk.toNat)[i] := by
    rw [hpad _ (by omega), blockOf_pad _ hi (by rw [← hl.plen_eq_plenOf]; omega)]
  obtain ⟨-, b0, b1, b2, b3, h0, h1, h2, h3, rfl⟩ := (memRead4_ok_iff ..).mp hx
  rw [blockWordAddr] at h0 h1 h2 h3
  rw [Nat.add_assoc] at h1 h2 h3
  rw [hbyte _ (by omega), Option.some.injEq] at h0 h1 h2 h3
  rw [blockSchedule, schedule_block _ (by omega), blockWord, h0, h1, h2, h3]

theorem digestInv_execLdw {s t : State} (h : CoreInv s) (hd : DigestInv s) (hp : s.phase = .ldw)
    (hx : execLdw s = .next t) : DigestInv t := by
  obtain ⟨ht, x, hread, rfl⟩ := execLdw_next hx
  obtain ⟨-, hl, -, -, -, hblk, -⟩ := (coreInv_inBlock_iff (by simp [hp, inBlock])).mp h
  obtain ⟨hc, hw⟩ := (digestInv_expanding_iff (.inl hp)).mp hd
  have ht' : (s.t + 1#6).toNat = s.t.toNat + 1 := t_succ (by omega)
  refine (digestInv_expanding_iff (by dsimp only; split <;> simp [hp])).mpr ⟨hc, ht' ▸ ?_⟩
  exact scheduledTo_putW hw (memRead4_blockWord hl hc.1 hblk ht hread)

/-- All 64 words make the schedule. -/
theorem eq_blockSchedule {s : State} (h : ScheduledTo s 64) : s.w = blockSchedule s :=
  Vector.ext fun i hi => h i hi hi

theorem digestInv_execExp {s t : State} (hd : DigestInv s) (hp : s.phase = .exp) (hx : execExp s = .next t) :
    DigestInv t := by
  obtain ⟨ht, rfl⟩ := execExp_next hx
  obtain ⟨hc, hw⟩ := (digestInv_expanding_iff (.inr hp)).mp hd
  have hlt := s.t.isLt
  have hback (d : Nat) (h1 : 1 ≤ d) : wBack s d = (blockSchedule s)[s.t.toNat - d] := hw _ _ (by omega)
  have hw' := scheduledTo_putW hw (x := expandWord (wBack s 16) (wBack s 15) (wBack s 7) (wBack s 2)) <| by
    rw [hback 16 (by omega), hback 15 (by omega), hback 7 (by omega), hback 2 (by omega)]
    exact (schedule_expand _ _ ht).symm
  by_cases h63 : s.t = 63#6
  · have hlast : s.t.toNat = 63 := (t_eq_iff (by decide)).mp h63
    rw [hlast] at hw'
    exact (digestInv_ldv_iff (by simp [h63])).mpr ⟨hc, eq_blockSchedule hw'⟩
  · have : s.t.toNat ≠ 63 := mt (t_eq_iff (by decide)).mpr h63
    have ht' : (s.t + 1#6).toNat = s.t.toNat + 1 := t_succ (by omega)
    refine (digestInv_expanding_iff (by simp [h63, hp])).mpr ⟨hc, ?_⟩
    simp only [if_neg h63, ht']
    exact hw'

theorem digestInv_execLdv {s t : State} (hd : DigestInv s) (hp : s.phase = .ldv) (hx : execLdv s = .next t) :
    DigestInv t := by
  obtain rfl := execLdv_next hx
  obtain ⟨hc, hw⟩ := (digestInv_ldv_iff hp).mp hd
  exact (digestInv_rnd_iff rfl).mpr ⟨hc, hw, rfl⟩

/-- A round done is one more of the rounds of R175. -/
theorem round_eq_roundsUpTo {s : State} (h : s.v = roundsUpTo s.h s.w s.t.toNat) :
    round s.v (kAtT s) (wAtT s) = roundsUpTo s.h s.w (s.t.toNat + 1) := by
  rw [roundsUpTo, dif_pos s.t.isLt, h]
  rfl

theorem digestInv_execRnd {s t : State} (hd : DigestInv s) (hp : s.phase = .rnd) (hx : execRnd s = .next t) :
    DigestInv t := by
  obtain rfl := execRnd_next hx
  obtain ⟨hc, hw, hv⟩ := (digestInv_rnd_iff hp).mp hd
  have hlt := s.t.isLt
  have hv' := round_eq_roundsUpTo hv
  by_cases h63 : s.t = 63#6
  · have hlast : s.t.toNat = 63 := (t_eq_iff (by decide)).mp h63
    rw [hlast] at hv'
    exact (digestInv_fold_iff (by simp [h63])).mpr ⟨hc, hw, hv'⟩
  · have : s.t.toNat ≠ 63 := mt (t_eq_iff (by decide)).mpr h63
    have ht' : (s.t + 1#6).toNat = s.t.toNat + 1 := t_succ (by omega)
    refine (digestInv_rnd_iff (by simp [h63, hp])).mpr ⟨hc, hw, ?_⟩
    simp only [if_neg h63, ht']
    exact hv'

theorem digestInv_execFold {s t : State} (h : CoreInv s) (hd : DigestInv s) (hp : s.phase = .fold)
    (hx : execFold s = .next t) : DigestInv t := by
  obtain rfl := execFold_next hx
  obtain ⟨hb, hl, -, -, -, hblk, -⟩ := (coreInv_inBlock_iff (by simp [hp, inBlock])).mp h
  obtain ⟨⟨hpad, hh⟩, hw, hv⟩ := (digestInv_fold_iff hp).mp hd
  have hblk' : (s.blk + 1#64).toNat = s.blk.toNat + 1 := count_succ (by have := plen_lt_two_pow hb hl; omega)
  have hfold : addWords s.h s.v = hashBlocks (pad (message s)) (s.blk.toNat + 1) := by
    rw [hv, hw, hh]
    rfl
  by_cases hz : lastBlock s = true
  · have hlast : s.blk.toNat + 1 = plenOf (message s).length / 64 := by
      have := (lastBlock_iff s).mp hz
      rw [← hl.plen_eq_plenOf]
      omega
    exact (digestInv_done_iff (by simp [hz])).mpr ⟨hpad, by rw [hlast] at hfold; exact hfold⟩
  · refine (digestInv_expanding_iff (by simp [hz])).mpr ⟨⟨hpad, ?_⟩, scheduledTo_zero _⟩
    simp only [hblk']
    exact hfold

/-! ## Every agent's step -/

theorem digestInv_coreStep {s t : State} (h : CoreInv s) (hd : DigestInv s) (hx : coreStep s = .next t) :
    DigestInv t := by
  cases hp : s.phase <;> rw [coreStep_eq, hp] at hx
  case idle | done | error => cases hx; exact hd
  case pad80 => exact digestInv_execPad80 h hp hx
  case padz => exact digestInv_execPadz h hd hp hx
  case padl => exact digestInv_execPadl h hd hp hx
  case ldiv => exact digestInv_execLdiv hd hp hx
  case ldw => exact digestInv_execLdw h hd hp hx
  case exp => exact digestInv_execExp hd hp hx
  case ldv => exact digestInv_execLdv hd hp hx
  case rnd => exact digestInv_execRnd hd hp hx
  case fold => exact digestInv_execFold h hd hp hx

/-- A command answers, or leads to a phase in which no register holds a result yet. -/
theorem CommandEffect.keeps_digestInv {s t : State} (h : CommandEffect s t) (hd : DigestInv s) : DigestInv t := by
  cases h with
  | answered => exact hd
  | cleared => exact digestInv_loading (.inl rfl)
  | failed => exact digestInv_loading (.inr (.inl rfl))
  | pushed hp => exact digestInv_loading (.inl hp)
  | started => exact digestInv_loading (.inr (.inr rfl))

/-- Settles O46: by the agent that moves, then by the effect of the command or the phase of the core. -/
theorem stepKeepsDigestInv : Obligations.StepKeepsDigestInv := by
  intro s t h hd hx
  rcases step_next hx with ⟨-, hx⟩ | ⟨cw, rest, -, hx⟩ | ⟨rest, -, hx⟩ | ⟨rest, -, rfl⟩
  · exact digestInv_coreStep h hd hx
  · exact (hostStep_commandEffect hx).keeps_digestInv hd
  · exact digestInv_coreStep (coreInv_setMoves rest h) hd hx
  · exact digestInv_loading (.inl rfl)

end Sys2Proof.Machine
end

section
/-! PROOFS. The padding micro-operations one by one, and together after `START` (41_preprocessor.md R143 to R145,
R147). -/

namespace Sys2Proof.Machine

/-! ## One micro-operation -/

/-- Settles O22: the answer exists below `CAP`, and its one store is the marker. -/
theorem pad80WritesMarker : Obligations.Pad80WritesMarker := by
  intro s hlt
  obtain ⟨t, hx⟩ := execPad80_answers hlt
  obtain ⟨-, rfl⟩ := execPad80_next hx
  exact ⟨_, hx, by simp [zerosFollowMarker], fun x => mbGet_mbPut ..⟩

/-- Settles O23: the answer exists below `CAP`, and its one store is the zero byte. -/
theorem padzWritesZero : Obligations.PadzWritesZero := by
  intro s hp hlt
  obtain ⟨t, hx⟩ := execPadz_answers hlt
  obtain ⟨-, rfl⟩ := execPadz_next hx
  exact ⟨_, hx, by simp [lastZeroByte, hp], fun x => mbGet_mbPut ..⟩

theorem byteOfCount_toNat (x : Count) (k : Nat) :
    (byteOfCount x k).toNat = x.toNat / 2 ^ (8 * (7 - k)) % 256 := by
  simp [byteOfCount, Nat.shiftRight_eq_div_pow]

/-- Settles O24: the answer exists in the ranges of `T` and `PP`, and its one store is the trailer byte. -/
theorem padlWritesTrailerByte : Obligations.PadlWritesTrailerByte := by
  intro s hp ht hlt
  obtain ⟨t, hx⟩ := execPadl_answers ht hlt
  obtain ⟨-, -, rfl⟩ := execPadl_next hx
  have h7 : s.t = 7#6 ↔ s.t.toNat = 7 := t_eq_iff (by decide)
  refine ⟨_, trailerByte s, hx, by simp only [h7, hp], ?_, fun x => mbGet_mbPut ..⟩
  rw [trailerByte, byteOfCount_toNat, bitLength, BitVec.toNat_mul]
  rfl

/-! ## The run of the padding phases -/

theorem runSteps_succ {s t : State} (n : Nat) (h : step s = .next t) : runSteps (n + 1) s = runSteps n t := by
  simp only [runSteps, h]

theorem step_pad80 {s : State} (hm : s.moves = []) (hp : s.phase = .pad80) (hcap : s.len.toNat < s.cap) :
    step s = .next { s with
      mb := mbPut s.mb s.len.toNat 0x80#8, pp := s.len + 1#64, t := 0#6,
      phase := if zerosFollowMarker s then .padz else .padl } := by
  obtain ⟨t, hx⟩ := execPad80_answers hcap
  have hstep : step s = execPad80 s := by rw [step_of_moves_nil hm, coreStep_eq, hp]; rfl
  obtain ⟨-, rfl⟩ := execPad80_next hx
  rw [hstep, hx]

theorem step_padz {s : State} (hm : s.moves = []) (hp : s.phase = .padz) (hcap : s.pp.toNat < s.cap) :
    step s = .next { s with
      mb := mbPut s.mb s.pp.toNat 0x00#8, pp := s.pp + 1#64,
      phase := if lastZeroByte s then .padl else .padz } := by
  obtain ⟨t, hx⟩ := execPadz_answers hcap
  have hstep : step s = execPadz s := by rw [step_of_moves_nil hm, coreStep_eq, hp]; rfl
  obtain ⟨-, rfl⟩ := execPadz_next hx
  rw [hstep, hx, hp]

/-- The `PADZ` steps that remain fill with zero bytes all places up to the trailer's. -/
theorem runSteps_padz {n : Nat} {s : State} (hm : s.moves = []) (hp : s.phase = .padz)
    (hroom : s.pp.toNat + (n + 1) + 8 = s.plen.toNat) (hfit : s.plen.toNat ≤ s.cap) (hlegal : Config.CapLegal s.cap) :
    runSteps (n + 1) s = .next { s with
      mb := mbPutList s.mb s.pp.toNat (List.replicate (n + 1) 0x00#8),
      pp := s.pp + BitVec.ofNat 64 (n + 1), phase := .padl } := by
  have hstep := step_padz hm hp (by omega)
  induction n generalizing s with
  | zero =>
    rw [runSteps_one hstep, (lastZeroByte_iff s).mpr hroom]
    rfl
  | succ n ih =>
    have hmore : ¬ lastZeroByte s = true := mt (lastZeroByte_iff s).mp (by omega)
    simp only [if_neg hmore] at hstep
    have hpp : (s.pp + 1#64).toNat = s.pp.toNat + 1 := count_succ (by omega)
    have hadvance : s.pp + 1#64 + BitVec.ofNat 64 (n + 1) = s.pp + BitVec.ofNat 64 (n + 1 + 1) := by
      rw [BitVec.add_assoc, ← BitVec.ofNat_add, Nat.add_comm 1]
    have hroom' : (s.pp + 1#64).toNat + (n + 1) + 8 = s.plen.toNat := by omega
    rw [runSteps_succ _ hstep]
    refine Eq.trans (ih hm rfl hroom' hfit hlegal (step_padz hm rfl (by dsimp only; omega))) ?_
    simp only [hpp, hadvance]
    rfl

/-- The marker and the zero bytes, of which there may be none, up to the trailer's place. -/
theorem runSteps_marker_zeros {z : Nat} {s : State} (hm : s.moves = []) (hp : s.phase = .pad80)
    (hroom : s.len.toNat + 1 + z + 8 = s.plen.toNat) (hfit : s.plen.toNat ≤ s.cap) (hlegal : Config.CapLegal s.cap) :
    runSteps (z + 1) s = .next { s with
      mb := mbPutList s.mb s.len.toNat (0x80#8 :: List.replicate z 0x00#8),
      pp := s.len + 1#64 + BitVec.ofNat 64 z, t := 0#6, phase := .padl } := by
  have hstep := step_pad80 hm hp (by omega)
  cases z with
  | zero =>
    have hnone : ¬ zerosFollowMarker s = true := mt (zerosFollowMarker_iff s).mp (by omega)
    rw [runSteps_one hstep]
    simp [hnone, mbPutList]
  | succ n =>
    have hpp : (s.len + 1#64).toNat = s.len.toNat + 1 := count_succ (by omega)
    rw [(zerosFollowMarker_iff s).mpr (by omega)] at hstep
    have hroom' : (s.len + 1#64).toNat + (n + 1) + 8 = s.plen.toNat := by omega
    rw [runSteps_succ _ hstep]
    refine Eq.trans (runSteps_padz hm rfl hroom' hfit hlegal) ?_
    simp only [hpp]
    rfl

theorem mbPutList_append (m : List Host.Cell) (a : Nat) (xs ys : List Byte) :
    mbPutList m a (xs ++ ys) = mbPutList (mbPutList m a xs) (a + xs.length) ys := by
  induction xs generalizing m a with
  | nil => rfl
  | cons x xs ih =>
    rw [List.cons_append, mbPutList, ih, mbPutList, List.length_cons, Nat.add_assoc, Nat.add_comm 1]

/-- From `PAD80` on, the padding steps store what padding puts after the message, consecutively from `LEN`. -/
theorem runSteps_padding {s : State} (hm : s.moves = []) (hp : s.phase = .pad80)
    (hplen : s.plen.toNat = plenOf s.len.toNat) (hfit : s.plen.toNat ≤ s.cap) (hlegal : Config.CapLegal s.cap) :
    runSteps (plenOf s.len.toNat - s.len.toNat) s = .next { s with
      mb := mbPutList s.mb s.len.toNat (padTail s.len.toNat), pp := s.plen, t := 0#6, phase := .ldiv } := by
  obtain ⟨-, hroom, -⟩ := plenOf_bounds s.len.toNat
  obtain ⟨z, hz⟩ : ∃ z, plenOf s.len.toNat - s.len.toNat - 9 = z := ⟨_, rfl⟩
  have hpp : (s.len + 1#64 + BitVec.ofNat 64 z).toNat = s.len.toNat + (z + 1) := by
    simp only [BitVec.toNat_add, BitVec.toNat_ofNat]
    omega
  have hend : s.len + 1#64 + BitVec.ofNat 64 z + BitVec.ofNat 64 (7 + 1) = s.plen := by
    apply BitVec.eq_of_toNat_eq
    rw [BitVec.toNat_add, hpp, BitVec.toNat_ofNat]
    omega
  rw [show plenOf s.len.toNat - s.len.toNat = z + 1 + (7 + 1) by omega,
    runSteps_trans _ (runSteps_marker_zeros hm hp (by omega) hfit hlegal)]
  refine Eq.trans (runSteps_padl hm rfl rfl (by dsimp only; omega) hlegal) ?_
  rw [hend, padTail, hz, ← List.cons_append, mbPutList_append, ← bitLength_eq, List.length_cons,
    List.length_replicate]
  simp only [hpp]
  rfl

/-- The state after an accepted `START` that was the last move: the padded length is latched (R218). -/
def started (s : State) : State :=
  respondOk 0#32 (setSeq .pad80 0#64 0#6
    { setMoves [] s with plen := BitVec.ofNat 64 (plenOf s.len.toNat), pp := s.len })

theorem step_start {s : State} (hm : s.moves = [.command 0x0300#16]) (hp : s.phase = .idle)
    (hfit : plenOf s.len.toNat ≤ s.cap) : step s = .next (started s) := by
  rw [step_of_decoded (i := .start 0#8) hm rfl]
  simp only [exec, execStart, acceptsLoad_eq, setMoves_phase, hp, setMoves_cap, setMoves_len, if_neg hfit.not_gt]
  rfl

/-- A message with what padding puts after it is the padded message. -/
theorem mbGet_padTail {m : List Host.Cell} {M : List Byte} (h : ∀ x, x < M.length → mbGet m x = M[x]?) {x : Nat}
    (hx : x < plenOf M.length) : mbGet (mbPutList m M.length (padTail M.length)) x = (pad M)[x]? := by
  have hlen := padTail_length M.length
  rw [mbGet_mbPutList, pad_eq]
  by_cases hM : x < M.length
  · rw [dif_neg (by omega), h x hM, List.getElem?_append_left hM]
  · rw [dif_pos (by omega), List.getElem?_append_right (by omega), List.getElem?_eq_getElem]

/-- Settles O55: `START`, then the run of the padding phases. -/
theorem padderCorrect : Obligations.PadderCorrect := by
  intro s M hlegal hp hm hlen hfit hM
  rw [← hlen] at hfit ⊢
  have hplen : (BitVec.ofNat 64 (plenOf s.len.toNat)).toNat = plenOf s.len.toNat := by
    rw [BitVec.toNat_ofNat, Nat.mod_eq_of_lt (by omega)]
  have hstart := runSteps_one (step_start hm hp hfit)
  have hpadded := runSteps_padding (s := started s) rfl rfl hplen (hplen.le.trans hfit) hlegal
  refine ⟨_, (runSteps_trans _ hstart).trans hpadded, rfl, hplen, hplen, fun x hx => ?_⟩
  rw [hlen] at hx
  have htail := mbGet_padTail hM hx
  rwa [← hlen] at htail

end Sys2Proof.Machine
end

section
/-! PROOFS. The message schedule expander: `LDW` and `EXP` one by one, their frame, and their sixty-four steps together
(42_schedule_expander.md R160 to R164). -/

namespace Sys2Proof.Machine

/-! ## The schedule as a function -/

/-- Settles O10: each word of the schedule is the one pushed for it. -/
theorem scheduleRecurrence : Obligations.ScheduleRecurrence := fun B =>
  ⟨fun _ h => schedule_block B h, fun _ h h16 => schedule_expand B h h16⟩

/-! ## One micro-operation -/

theorem putW_getElem (s : State) (x : Word) {i : Nat} (hi : i < 64) :
    (putW s x)[i] = if i = s.t.toNat then x else s.w[i] := by
  simp only [putW, Vector.getElem_set, eq_comm]

/-- `LDW` with `T` in its range takes the word it reads (R162). -/
theorem execLdw_of_read {s : State} {x : Word} (ht : s.t.toNat ≤ 15) (hx : memRead4 s (blockWordAddr s) = .ok x) :
    execLdw s = .next { s with
      w := putW s x, t := s.t + 1#6, phase := if s.t = 15#6 then .exp else s.phase } := by
  rw [execLdw, withinSteps_of _ (Nat.zero_le _) ht, hx, andThen_ok]

/-- `EXP` with `T` in its range always answers (R163). -/
theorem execExp_of_range {s : State} (ht : 16 ≤ s.t.toNat) :
    execExp s = .next { s with
      w := putW s (expandWord (wBack s 16) (wBack s 15) (wBack s 7) (wBack s 2))
      t := if s.t = 63#6 then 0#6 else s.t + 1#6
      phase := if s.t = 63#6 then .ldv else s.phase } := by
  rw [execExp, withinSteps_of _ ht (by omega)]

/-- Settles O27: the four bytes make the word read, and it is stored at `T`. -/
theorem ldwLoadsBlockWord : Obligations.LdwLoadsBlockWord := by
  intro s b0 b1 b2 b3 hp ht hcap h0 h1 h2 h3
  have hread : memRead4 s (blockWordAddr s) = .ok (be32 b0 b1 b2 b3) :=
    (memRead4_ok_iff ..).mpr ⟨hcap, b0, b1, b2, b3, h0, h1, h2, h3, rfl⟩
  have h15 : s.t = 15#6 ↔ s.t.toNat = 15 := t_eq_iff (by decide)
  exact ⟨_, execLdw_of_read ht hread, by simp only [h15, hp], fun _ => putW_getElem s _⟩

/-- Settles O28: the recurrence of the words before `T` is stored at `T`. -/
theorem expExtendsSchedule : Obligations.ExpExtendsSchedule := by
  intro s hp ht
  have h63 : s.t = 63#6 ↔ s.t.toNat = 63 := t_eq_iff (by decide)
  refine ⟨_, execExp_of_range ht, by simp only [h63, hp], fun i hi => (putW_getElem s _ hi).trans ?_⟩
  split
  · rename_i hT
    subst hT
    rfl
  · rfl

/-! ## The frame of the expander -/

/-- `LDW` and `EXP` store one word at `T` and move `T` and `PHASE` (R162, R163). -/
theorem exec_expander_next {i : Instr} {s t : State} (hi : i = .ldw ∨ i = .exp) (hx : exec i s = .next t) :
    ∃ x n p, t = { s with w := putW s x, t := n, phase := p } := by
  rcases hi with rfl | rfl
  · obtain ⟨-, x, -, rfl⟩ := execLdw_next hx
    exact ⟨x, _, _, rfl⟩
  · obtain ⟨-, rfl⟩ := execExp_next hx
    exact ⟨_, _, _, rfl⟩

/-- Settles O36: the one word stored leaves every other, and no other register is named in the update. -/
theorem expanderFrame : Obligations.ExpanderFrame := by
  intro i s t hi hx
  obtain ⟨x, n, p, rfl⟩ := exec_expander_next hi hx
  refine ⟨fun k hk hne => ?_, fun _ => rfl, rfl, rfl, rfl, rfl, rfl, rfl, rfl, rfl, rfl, rfl, rfl⟩
  exact (putW_getElem s x hk).trans (if_neg hne)

/-! ## The sixty-four steps of a block -/

/-- A turn of the core in `LDW` inside the range of R162. -/
theorem step_ldw {s : State} {x : Word} (hm : s.moves = []) (hp : s.phase = .ldw) (ht : s.t.toNat ≤ 15)
    (hx : memRead4 s (blockWordAddr s) = .ok x) :
    step s = .next { s with w := putW s x, t := s.t + 1#6, phase := if s.t = 15#6 then .exp else .ldw } := by
  have hstep : step s = execLdw s := by rw [step_of_moves_nil hm, coreStep_eq, hp]; rfl
  rw [hstep, execLdw_of_read ht hx, hp]

/-- A turn of the core in `EXP` inside the range of R163. -/
theorem step_exp {s : State} (hm : s.moves = []) (hp : s.phase = .exp) (ht : 16 ≤ s.t.toNat) :
    step s = .next { s with
      w := putW s (expandWord (wBack s 16) (wBack s 15) (wBack s 7) (wBack s 2))
      t := if s.t = 63#6 then 0#6 else s.t + 1#6
      phase := if s.t = 63#6 then .ldv else .exp } := by
  have hstep : step s = execExp s := by rw [step_of_moves_nil hm, coreStep_eq, hp]; rfl
  rw [hstep, execExp_of_range ht, hp]

/-- `W` with its first `n` words replaced by those of the block's schedule. Irreducible, so that comparing states never
computes a schedule. -/
@[irreducible] def scheduledWords (w : Vector Word 64) (B : Block) (n : Nat) : Vector Word 64 :=
  Vector.ofFn fun i => if i.val < n then (schedule B)[i] else w[i]

theorem scheduledWords_getElem (w : Vector Word 64) (B : Block) (n : Nat) {i : Nat} (hi : i < 64) :
    (scheduledWords w B n)[i] = if i < n then (schedule B)[i] else w[i] := by
  simp [scheduledWords]

@[simp] theorem scheduledWords_zero (w : Vector Word 64) (B : Block) : scheduledWords w B 0 = w :=
  Vector.ext fun i hi => by simp [scheduledWords_getElem]

@[simp] theorem scheduledWords_all (w : Vector Word 64) (B : Block) : scheduledWords w B 64 = schedule B :=
  Vector.ext fun i hi => by simp [scheduledWords_getElem, hi]

/-- Word `n` of the schedule stored at `n` extends the words by one. -/
theorem scheduledWords_set (w : Vector Word 64) (B : Block) {n : Nat} (hn : n < 64) :
    (scheduledWords w B n).set n (schedule B)[n] hn = scheduledWords w B (n + 1) := by
  ext i hi : 1
  rw [Vector.getElem_set, scheduledWords_getElem, scheduledWords_getElem]
  rcases Nat.lt_trichotomy i n with h | rfl | h
  · rw [if_neg (by omega), if_pos h, if_pos (by omega)]
  · rw [if_pos rfl, if_pos (by omega)]
  · rw [if_neg (by omega), if_neg (by omega), if_neg (by omega)]

/-- The phase in which `n` words of the schedule are in place (R199). -/
def expanderPhase (n : Nat) : Phase := if n < 16 then .ldw else if n < 64 then .exp else .ldv

/-- The state after the first `n` of the sixty-four steps on block `B`. -/
def expandedTo (s : State) (B : Block) (n : Nat) : State :=
  { s with w := scheduledWords s.w B n, t := BitVec.ofNat 6 n, phase := expanderPhase n }

theorem expandedTo_t_toNat (s : State) (B : Block) {n : Nat} (hn : n < 64) : (expandedTo s B n).t.toNat = n :=
  (BitVec.toNat_ofNat n 6).trans (Nat.mod_eq_of_lt hn)

theorem putW_expandedTo (s : State) (B : Block) {n : Nat} (hn : n < 64) :
    putW (expandedTo s B n) (schedule B)[n] = scheduledWords s.w B (n + 1) := by
  rw [← scheduledWords_set s.w B hn]
  simp only [putW, expandedTo_t_toNat s B hn]
  rfl

/-- The words before `T` that `EXP` reads are the schedule's. -/
theorem wBack_expandedTo (s : State) (B : Block) {n d : Nat} (hn : n < 64) (h1 : 1 ≤ d) (hd : d ≤ n) :
    wBack (expandedTo s B n) d = (schedule B)[n - d] := by
  simp only [wBack, expandedTo_t_toNat s B hn]
  exact (scheduledWords_getElem ..).trans (if_pos (by omega))

/-- The 64 bytes of the present block in `MB` are those of `B`. -/
def HoldsBlock (s : State) (B : Block) : Prop :=
  ∀ i, (h : i < 64) → mbGet s.mb (64 * s.blk.toNat + i) = some B[i]

theorem memRead4_block {s : State} {B : Block} (hcap : 64 * s.blk.toNat + 64 ≤ s.cap)
    (hB : HoldsBlock s B) {n : Nat} (hn : n < 16) :
    memRead4 s (64 * s.blk.toNat + 4 * n) = .ok (blockWord B n hn) :=
  (memRead4_ok_iff ..).mpr ⟨by omega, _, _, _, _, hB (4 * n) (by omega), hB (4 * n + 1) (by omega),
    hB (4 * n + 2) (by omega), hB (4 * n + 3) (by omega), rfl⟩

/-- The word `LDW` reads is the schedule's (R61, R160). -/
theorem memRead4_expandedTo {s : State} {B : Block} (hcap : 64 * s.blk.toNat + 64 ≤ s.cap)
    (hB : HoldsBlock s B) {n : Nat} (hn : n < 16) :
    memRead4 (expandedTo s B n) (blockWordAddr (expandedTo s B n)) = .ok (schedule B)[n] := by
  rw [blockWordAddr, expandedTo_t_toNat s B (by omega), schedule_block B hn]
  exact memRead4_block (s := expandedTo s B n) hcap hB hn

/-- The word `EXP` computes is the schedule's (R161). -/
theorem expandWord_expandedTo (s : State) (B : Block) {n : Nat} (h16 : 16 ≤ n) (hn : n < 64) :
    expandWord (wBack (expandedTo s B n) 16) (wBack (expandedTo s B n) 15) (wBack (expandedTo s B n) 7)
      (wBack (expandedTo s B n) 2) = (schedule B)[n] := by
  have hback (d : Nat) (h1 : 1 ≤ d) (hd : d ≤ 16) := wBack_expandedTo s B hn h1 (hd.trans h16)
  rw [hback 16 (by omega) (by omega), hback 15 (by omega) (by omega), hback 7 (by omega) (by omega),
    hback 2 (by omega) (by omega), schedule_expand B hn h16]

theorem step_expandedTo_ldw {s : State} {B : Block} (hm : s.moves = []) (hcap : 64 * s.blk.toNat + 64 ≤ s.cap)
    (hB : HoldsBlock s B) {n : Nat} (hn : n < 16) :
    step (expandedTo s B n) = .next (expandedTo s B (n + 1)) := by
  have ht : (BitVec.ofNat 6 n).toNat = n := expandedTo_t_toNat s B (by omega)
  have h15 : BitVec.ofNat 6 n = 15#6 ↔ n = 15 := (t_eq_iff (by decide)).trans (by rw [ht])
  have hphase : (if n = 15 then Phase.exp else .ldw) = expanderPhase (n + 1) := by
    interval_cases n <;> rfl
  rw [step_ldw (s := expandedTo s B n) hm (if_pos hn) (ht.trans_le (by omega)) (memRead4_expandedTo hcap hB hn),
    putW_expandedTo s B (by omega)]
  simp only [expandedTo, h15, hphase, BitVec.ofNat_add]

theorem step_expandedTo_exp {s : State} {B : Block} (hm : s.moves = []) {n : Nat} (h16 : 16 ≤ n) (hn : n < 64) :
    step (expandedTo s B n) = .next (expandedTo s B (n + 1)) := by
  have ht : (BitVec.ofNat 6 n).toNat = n := expandedTo_t_toNat s B hn
  have h63 : BitVec.ofNat 6 n = 63#6 ↔ n = 63 := (t_eq_iff (by decide)).trans (by rw [ht])
  have hp : expanderPhase n = .exp := (if_neg (by omega)).trans (if_pos hn)
  rw [step_exp (s := expandedTo s B n) hm hp (h16.trans_eq ht.symm), expandWord_expandedTo s B h16 hn,
    putW_expandedTo s B hn]
  by_cases h : n = 63
  · subst h
    rfl
  · have hphase : expanderPhase (n + 1) = .exp := (if_neg (by omega)).trans (if_pos (by omega))
    simp only [expandedTo, h63, if_neg h, hphase, BitVec.ofNat_add]

/-- The first `n` steps put the first `n` words in place. -/
theorem runSteps_expandedTo {s : State} {B : Block} (hm : s.moves = []) (hcap : 64 * s.blk.toNat + 64 ≤ s.cap)
    (hB : HoldsBlock s B) {n : Nat} (hn : n ≤ 64) :
    runSteps n (expandedTo s B 0) = .next (expandedTo s B n) := by
  induction n with
  | zero => rfl
  | succ n ih =>
    rw [runSteps_trans 1 (ih (by omega))]
    apply runSteps_one
    by_cases h : n < 16
    · exact step_expandedTo_ldw hm hcap hB h
    · exact step_expandedTo_exp hm (by omega) hn

/-- Settles O56: sixteen words by `LDW`, forty-eight by `EXP`, one a step. -/
theorem expanderCorrect : Obligations.ExpanderCorrect := by
  intro s B hm hp ht hcap hB
  have hfirst : expandedTo s B 0 = s := by
    rw [expandedTo, scheduledWords_zero, show BitVec.ofNat 6 0 = s.t from ht.symm,
      show expanderPhase 0 = s.phase from hp.symm]
  have hlast : expandedTo s B 64 = { s with w := schedule B, t := 0#6, phase := .ldv } := by
    rw [expandedTo, scheduledWords_all]
    rfl
  have hrun := runSteps_expandedTo hm hcap hB (le_refl 64)
  rwa [hfirst, hlast] at hrun

end Sys2Proof.Machine
end

section
/-! PROOFS. The compression engine: `LDV`, `RND` and `FOLD` one by one, the frame they share with `LDIV`, and the
sixty-six steps of a block together (43_compressor.md R175 to R181, 44_digest_assembler.md R198). -/

namespace Sys2Proof.Machine

/-! ## One micro-operation -/

/-- Settles O29: `LDV` has no check and no case. -/
theorem ldvLoadsVariables : Obligations.LdvLoadsVariables := fun _ => rfl

/-- The round of R176 on variables written out. -/
theorem round_mk (a b c d e f g h k w : Word) :
    round #v[a, b, c, d, e, f, g, h] k w =
      #v[h + S1 e + ch e f g + k + w + (S0 a + maj a b c), a, b, c, d + (h + S1 e + ch e f g + k + w), e, f, g] := rfl

/-- Settles O30: the rows of `K` put together are its 64 words, and `RND` is the round on the old variables. -/
theorem rndPerformsRound : Obligations.RndPerformsRound := by
  refine ⟨rfl, fun s a b c d e f g h t1 t2 hp hv ht1 ht2 => ?_⟩
  have h63 : s.t = 63#6 ↔ s.t.toNat = 63 := t_eq_iff (by decide)
  have hround : round s.v (kAtT s) (wAtT s) = #v[t1 + t2, a, b, c, d + t1, e, f, g] := by
    rw [hv, round_mk, ht1, ht2]
    rfl
  simp only [exec, execRnd, hround, h63, hp]

theorem addWords_getElem (x y : Vector Word 8) {j : Nat} (hj : j < 8) : (addWords x y)[j] = x[j] + y[j] := by
  interval_cases j <;> rfl

/-- Settles O31: `FOLD` adds word by word, and `lastBlock` is the comparison of R179. -/
theorem foldAddsAndAdvances : Obligations.FoldAddsAndAdvances := fun s =>
  ⟨_, rfl, by simp only [lastBlock_iff], fun _ => addWords_getElem s.h s.v⟩

/-! ## The frame of the digest registers -/

/-- `LDIV` and `FOLD` move `H` and the sequencer, `LDV` and `RND` move `V`, `T` and `PHASE` (R177 to R179, R198). -/
theorem exec_digestRegisters_next {i : Instr} {s t : State} (hi : i = .ldiv ∨ i = .ldv ∨ i = .rnd ∨ i = .fold)
    (hx : exec i s = .next t) :
    ((i = .ldiv ∨ i = .fold) ∧ ∃ h blk n p, t = { s with h := h, blk := blk, t := n, phase := p }) ∨
      ((i = .ldv ∨ i = .rnd) ∧ ∃ v n p, t = { s with v := v, t := n, phase := p }) := by
  rcases hi with rfl | rfl | rfl | rfl
  · obtain rfl := execLdiv_next hx
    exact .inl ⟨.inl rfl, _, _, _, _, rfl⟩
  · obtain rfl := execLdv_next hx
    exact .inr ⟨.inl rfl, _, _, _, rfl⟩
  · obtain rfl := execRnd_next hx
    exact .inr ⟨.inr rfl, _, _, _, rfl⟩
  · obtain rfl := execFold_next hx
    exact .inl ⟨.inr rfl, _, _, _, _, rfl⟩

/-- Settles O37: the registers of the frame are none of those the update names. -/
theorem digestRegistersFrame : Obligations.DigestRegistersFrame := by
  intro i s t hi hx
  obtain ⟨hi, h, blk, n, p, rfl⟩ | ⟨hi, v, n, p, rfl⟩ := exec_digestRegisters_next hi hx
  · have hother : ¬(i = .ldv ∨ i = .rnd) := by rcases hi with rfl | rfl <;> decide
    exact ⟨fun _ => rfl, rfl, rfl, rfl, rfl, rfl, rfl, rfl, rfl, rfl, fun _ => rfl, fun h => absurd h hother⟩
  · have hother : ¬(i = .ldiv ∨ i = .fold) := by rcases hi with rfl | rfl <;> decide
    exact ⟨fun _ => rfl, rfl, rfl, rfl, rfl, rfl, rfl, rfl, rfl, rfl, fun h => absurd h hother, fun _ => ⟨rfl, rfl⟩⟩

/-! ## The sixty-six steps of a block -/

theorem step_ldv {s : State} (hm : s.moves = []) (hp : s.phase = .ldv) :
    step s = .next { s with v := s.h, t := 0#6, phase := .rnd } := by
  rw [step_of_moves_nil hm, coreStep_eq, hp]
  rfl

theorem step_rnd {s : State} (hm : s.moves = []) (hp : s.phase = .rnd) :
    step s = .next { s with
      v := round s.v (kAtT s) (wAtT s)
      t := if s.t = 63#6 then 0#6 else s.t + 1#6
      phase := if s.t = 63#6 then .fold else .rnd } := by
  have hstep : step s = execRnd s := by rw [step_of_moves_nil hm, coreStep_eq, hp]; rfl
  rw [hstep, execRnd, hp]

theorem step_fold {s : State} (hm : s.moves = []) (hp : s.phase = .fold) :
    step s = .next { s with
      h := addWords s.h s.v, blk := s.blk + 1#64, t := 0#6, phase := if lastBlock s then .done else .ldw } := by
  rw [step_of_moves_nil hm, coreStep_eq, hp]
  rfl

/-- The phase in which `n` rounds are done (R178). -/
def enginePhase (n : Nat) : Phase := if n < 64 then .rnd else .fold

/-- The state after `LDV` and the first `n` of the sixty-four rounds. -/
def roundedTo (s : State) (n : Nat) : State :=
  { s with v := roundsUpTo s.h s.w n, t := BitVec.ofNat 6 n, phase := enginePhase n }

/-- A turn of the core does the next round. -/
theorem step_roundedTo {s : State} (hm : s.moves = []) {n : Nat} (hn : n < 64) :
    step (roundedTo s n) = .next (roundedTo s (n + 1)) := by
  have ht : (BitVec.ofNat 6 n).toNat = n := (BitVec.toNat_ofNat n 6).trans (Nat.mod_eq_of_lt hn)
  have h63 : BitVec.ofNat 6 n = 63#6 ↔ n = 63 := (t_eq_iff (by decide)).trans (by rw [ht])
  have hround : round (roundedTo s n).v (kAtT (roundedTo s n)) (wAtT (roundedTo s n)) = roundsUpTo s.h s.w (n + 1) :=
    (round_eq_roundsUpTo (congrArg (roundsUpTo s.h s.w) ht.symm)).trans (congrArg (roundsUpTo s.h s.w <| · + 1) ht)
  rw [step_rnd (s := roundedTo s n) hm (if_pos hn), hround]
  by_cases h : n = 63
  · subst h
    rfl
  · have hphase : enginePhase (n + 1) = .rnd := if_pos (by omega)
    simp only [roundedTo, h63, if_neg h, hphase, BitVec.ofNat_add]

/-- The first `n` rounds, one a step. -/
theorem runSteps_roundedTo {s : State} (hm : s.moves = []) {n : Nat} (hn : n ≤ 64) :
    runSteps n (roundedTo s 0) = .next (roundedTo s n) := by
  induction n with
  | zero => rfl
  | succ n ih =>
    rw [runSteps_trans 1 (ih (by omega))]
    exact runSteps_one (step_roundedTo hm hn)

/-- Settles O57: `LDV` starts the rounds, sixty-four steps do them, and `FOLD` adds what they leave to `H`. -/
theorem engineCorrect : Obligations.EngineCorrect := by
  intro s hm hp
  have hldv : step s = .next (roundedTo s 0) := step_ldv hm hp
  have hrounds : runSteps 64 (roundedTo s 0) = .next (roundedTo s 64) := runSteps_roundedTo hm (le_refl 64)
  have hfold := step_fold (s := roundedTo s 64) hm rfl
  refine ⟨_, ((runSteps_succ 65 hldv).trans (runSteps_trans 1 hrounds)).trans (runSteps_one hfold), ?_⟩
  simp only [lastBlock_iff, compress, roundedTo]

end Sys2Proof.Machine
end

section
/-! PROOFS. The sequencer: each core step against the transition table, each command against its rows, and the count of
the steps left (44_digest_assembler.md R199, R203). -/

namespace Sys2Proof.Machine

/-! ## One micro-operation against the table (R199) -/

theorem seqStep_execPad80 {s t : State} (h : CoreInv s) (hp : s.phase = .pad80) (hx : execPad80 s = .next t) :
    SeqStep s t.phase t.t.toNat t.blk.toNat := by
  obtain ⟨-, rfl⟩ := execPad80_next hx
  obtain ⟨-, hl, -⟩ := (coreInv_pad80_iff hp).mp h
  by_cases hz : zerosFollowMarker s = true
  · simp only [if_pos hz]
    exact .pad80Zeros hp ((zerosFollowMarker_iff s).mp hz)
  · have hnone := mt (zerosFollowMarker_iff s).mpr hz
    have htrail := hl.holdsTrailer
    simp only [if_neg hz]
    exact .pad80NoZeros hp (by omega)

theorem seqStep_execPadz {s t : State} (h : CoreInv s) (hp : s.phase = .padz) (hx : execPadz s = .next t) :
    SeqStep s t.phase t.t.toNat t.blk.toNat := by
  obtain ⟨-, rfl⟩ := execPadz_next hx
  obtain ⟨-, -, -, ht, ⟨-, hroom⟩, -⟩ := (coreInv_padz_iff hp).mp h
  by_cases hz : lastZeroByte s = true
  · simp only [if_pos hz, ht]
    exact .padzLast hp ((lastZeroByte_iff s).mp hz)
  · have hmore := mt (lastZeroByte_iff s).mpr hz
    simp only [if_neg hz, ht, hp]
    exact .padzMore hp (by omega)

theorem seqStep_execPadl {s t : State} (hp : s.phase = .padl) (hx : execPadl s = .next t) :
    SeqStep s t.phase t.t.toNat t.blk.toNat := by
  obtain ⟨ht, -, rfl⟩ := execPadl_next hx
  have h7 : s.t = 7#6 ↔ s.t.toNat = 7 := t_eq_iff (by decide)
  by_cases hz : s.t = 7#6
  · simp only [if_pos hz]
    exact .padlLast hp (h7.mp hz)
  · have hlt : s.t.toNat < 7 := by have := mt h7.mpr hz; omega
    simp only [if_neg hz, hp, t_succ (hlt.trans (by decide))]
    exact .padlMore hp hlt

theorem seqStep_execLdiv {s t : State} (hp : s.phase = .ldiv) (hx : execLdiv s = .next t) :
    SeqStep s t.phase t.t.toNat t.blk.toNat := by
  obtain rfl := execLdiv_next hx
  exact .ldiv hp

theorem seqStep_execLdw {s t : State} (hp : s.phase = .ldw) (hx : execLdw s = .next t) :
    SeqStep s t.phase t.t.toNat t.blk.toNat := by
  obtain ⟨ht, x, -, rfl⟩ := execLdw_next hx
  have h15 : s.t = 15#6 ↔ s.t.toNat = 15 := t_eq_iff (by decide)
  by_cases hz : s.t = 15#6
  · simp only [if_pos hz]
    rw [hz]
    exact .ldwLast hp (h15.mp hz)
  · have hlt : s.t.toNat < 15 := by have := mt h15.mpr hz; omega
    simp only [if_neg hz, hp, t_succ (hlt.trans (by decide))]
    exact .ldwMore hp hlt

theorem seqStep_execExp {s t : State} (hp : s.phase = .exp) (hx : execExp s = .next t) :
    SeqStep s t.phase t.t.toNat t.blk.toNat := by
  obtain ⟨-, rfl⟩ := execExp_next hx
  have h63 : s.t = 63#6 ↔ s.t.toNat = 63 := t_eq_iff (by decide)
  by_cases hz : s.t = 63#6
  · simp only [if_pos hz]
    exact .expLast hp (h63.mp hz)
  · have hlt : s.t.toNat < 63 := by have := mt h63.mpr hz; omega
    simp only [if_neg hz, hp, t_succ hlt]
    exact .expMore hp hlt

theorem seqStep_execLdv {s t : State} (hp : s.phase = .ldv) (hx : execLdv s = .next t) :
    SeqStep s t.phase t.t.toNat t.blk.toNat := by
  obtain rfl := execLdv_next hx
  exact .ldv hp

theorem seqStep_execRnd {s t : State} (hp : s.phase = .rnd) (hx : execRnd s = .next t) :
    SeqStep s t.phase t.t.toNat t.blk.toNat := by
  obtain rfl := execRnd_next hx
  have h63 : s.t = 63#6 ↔ s.t.toNat = 63 := t_eq_iff (by decide)
  by_cases hz : s.t = 63#6
  · simp only [if_pos hz]
    exact .rndLast hp (h63.mp hz)
  · have hlt : s.t.toNat < 63 := by have := mt h63.mpr hz; omega
    simp only [if_neg hz, hp, t_succ hlt]
    exact .rndMore hp hlt

theorem seqStep_execFold {s t : State} (h : CoreInv s) (hp : s.phase = .fold) (hx : execFold s = .next t) :
    SeqStep s t.phase t.t.toNat t.blk.toNat := by
  obtain rfl := execFold_next hx
  obtain ⟨hb, hl, -, -, -, hblk, -⟩ := (coreInv_inBlock_iff (by simp [hp, inBlock])).mp h
  have hblk' : (s.blk + 1#64).toNat = s.blk.toNat + 1 := count_succ (by have := plen_lt_two_pow hb hl; omega)
  have hwhole := hl.wholeBlocks
  by_cases hz : lastBlock s = true
  · have hlast := (lastBlock_iff s).mp hz
    simp only [if_pos hz, hblk']
    exact .foldLast hp (by omega)
  · have hmore := mt (lastBlock_iff s).mpr hz
    simp only [if_neg hz, hblk']
    exact .foldMore hp (by omega)

/-- A core step in a busy phase is a row of the table. -/
theorem seqStep_coreStep {s t : State} (h : CoreInv s) (hb : busy s.phase = true) (hx : coreStep s = .next t) :
    SeqStep s t.phase t.t.toNat t.blk.toNat := by
  cases hp : s.phase <;> rw [coreStep_eq, hp] at hx
  case idle | done | error => simp [hp] at hb
  case pad80 => exact seqStep_execPad80 h hp hx
  case padz => exact seqStep_execPadz h hp hx
  case padl => exact seqStep_execPadl hp hx
  case ldiv => exact seqStep_execLdiv hp hx
  case ldw => exact seqStep_execLdw hp hx
  case exp => exact seqStep_execExp hp hx
  case ldv => exact seqStep_execLdv hp hx
  case rnd => exact seqStep_execRnd hp hx
  case fold => exact seqStep_execFold h hp hx

open SeqStep in
/-- No row of the table reads the list of moves. -/
theorem seqStep_of_setMoves {s : State} {l : List Move} {p : Phase} {n b : Nat} (h : SeqStep (setMoves l s) p n b) :
    SeqStep s p n b :=
  SeqStep.rec (s := setMoves l s) (motive := fun p n b _ => SeqStep s p n b) (@pad80Zeros s) (@pad80NoZeros s)
    (@padzMore s) (@padzLast s) (@padlMore s) (@padlLast s) (@ldiv s) (@ldwMore s) (@ldwLast s) (@expMore s)
    (@expLast s) (@ldv s) (@rndMore s) (@rndLast s) (@foldMore s) (@foldLast s) h

/-! ## The rows of the host (R199, R216 to R218) -/

/-- The sequencer stands where it stood. -/
def SeqKept (s t : State) : Prop := t.phase = s.phase ∧ t.t = s.t ∧ t.blk = s.blk

theorem seqKept_respond (rc : RespCode) (data : Word) (s : State) : SeqKept s (respond rc data s) := ⟨rfl, rfl, rfl⟩

theorem seqKept_raiseIf (c : IfCause) (s : State) : SeqKept s (raiseIf c s) := seqKept_respond _ _ s

/-- A command whose only effect is its answer keeps the sequencer, accepted or refused. -/
theorem seqKept_guarded_respondOk {legal accepted : Bool} {data : Word} {s t : State}
    (h : guarded legal accepted s (.next (respondOk data s)) = .next t) : SeqKept s t := by
  rcases guarded_next h with ⟨-, rfl⟩ | ⟨-, -, rfl⟩ | ⟨-, -, h⟩
  · exact seqKept_raiseIf _ s
  · exact seqKept_raiseIf _ s
  · cases h
    exact seqKept_respond _ _ s

/-- The ways a command word can move the sequencer (R199): accepted `START`, resource error, accepted `CLR`. -/
def HostSeqStep (cw : CommandWord) (s t : State) : Prop :=
  SeqKept s t ∨
    (cw = 0x0300#16 ∧ plenOf s.len.toNat ≤ s.cap ∧ s.phase = .idle ∧ t.phase = .pad80 ∧ t.t = 0#6 ∧ t.blk = 0#64) ∨
    (((cw = 0x0300#16 ∧ s.cap < plenOf s.len.toNat) ∨ (cw.toNat / 256 = 2 ∧ s.len.toNat = s.cap)) ∧
      s.phase = .idle ∧ t.phase = .error ∧ t.t = s.t ∧ t.blk = s.blk) ∨
    (cw = 0x0100#16 ∧ busy s.phase = false ∧ t.phase = .idle ∧ t.t = 0#6 ∧ t.blk = 0#64)

/-- A word that decodes is the word of what it decodes to. -/
theorem encode_of_decodeCommand {cw : CommandWord} {i : Instr} (h : decodeCommand cw = .ok i) : encode i = .cmd16 cw :=
  encode_of_commandOf (commandOf_of_decodeCommand h)

theorem hostSeqStep_hostStep {cw : CommandWord} {s t : State} (hx : hostStep cw s = .next t) :
    HostSeqStep cw s t := by
  rcases hostStep_next hx with ⟨r, -, rfl⟩ | ⟨i, hi, hx⟩
  · exact .inl (seqKept_raiseIf _ s)
  have hcw := encode_of_decodeCommand hi
  cases i with
  | nop | rdw | rdb | rdx | rds => exact .inl (seqKept_guarded_respondOk hx)
  | clr imm =>
    rcases execClr_next hx with ⟨-, rfl⟩ | ⟨-, -, rfl⟩ | ⟨rfl, hp, rfl⟩
    · exact .inl (seqKept_raiseIf _ s)
    · exact .inl (seqKept_raiseIf _ s)
    · cases hcw
      exact .inr (.inr (.inr ⟨rfl, hp, rfl, rfl, rfl⟩))
  | push b =>
    rcases execPush_next hx with ⟨-, rfl⟩ | ⟨hp, hfull, rfl⟩ | ⟨-, -, rfl⟩
    · exact .inl (seqKept_raiseIf _ s)
    · cases hcw
      have hop : (commandWord 0x02#8 b).toNat / 256 = 2 := by
        rw [← opField_toNat, commandWord, opField_append]
        rfl
      exact .inr (.inr (.inl ⟨.inr ⟨hop, hfull⟩, hp, rfl, rfl, rfl⟩))
    · exact .inl ⟨rfl, rfl, rfl⟩
  | start imm =>
    rcases execStart_next hx with ⟨-, rfl⟩ | ⟨-, -, rfl⟩ | ⟨rfl, hp, hover, rfl⟩ | ⟨rfl, hp, hfit, rfl⟩
    · exact .inl (seqKept_raiseIf _ s)
    · exact .inl (seqKept_raiseIf _ s)
    · cases hcw
      exact .inr (.inr (.inl ⟨.inl ⟨rfl, hover⟩, hp, rfl, rfl, rfl⟩))
    · cases hcw
      exact .inr (.inl ⟨rfl, hfit, hp, rfl, rfl, rfl⟩)
  | pad80 | padz | padl | ldiv | ldw | exp | ldv | rnd | fold => cases hcw

/-- Settles O54: a turn of the core by the table, a command by the rows of the host. -/
theorem sequencerTransitions : Obligations.SequencerTransitions := by
  intro s t h hx
  have hturn (hm : s.moves = [] ∨ ∃ rest, s.moves = .core :: rest) : ∃ rest, coreStep (setMoves rest s) = .next t := by
    rcases hm with hm | ⟨rest, hm⟩
    · exact ⟨[], (step_of_coreTurn (.inr ⟨hm, rfl⟩)).symm.trans hx⟩
    · exact ⟨rest, (step_of_core hm).symm.trans hx⟩
  refine ⟨fun hm hb => ?_, fun hm hb => ?_, fun cw rest hm => ?_⟩
  · obtain ⟨rest, hx⟩ := hturn hm
    exact seqStep_of_setMoves (seqStep_coreStep (coreInv_setMoves rest h) hb hx)
  · obtain ⟨rest, hx⟩ := hturn hm
    rw [coreStep_of_not_busy (s := setMoves rest s) hb] at hx
    cases hx
    exact ⟨rfl, rfl, rfl⟩
  · rw [step_of_command hm] at hx
    exact hostSeqStep_hostStep (s := setMoves rest s) hx

/-! ## The steps left (R203) -/

/-- While a block is compressed at least that block is left (R45). -/
theorem blocksLeft_pos {s : State} (h : CoreInv s) (hp : inBlock s.phase = true) :
    1 ≤ s.plen.toNat / 64 - s.blk.toNat := by
  obtain ⟨-, hl, -, -, -, hblk, -⟩ := (coreInv_inBlock_iff hp).mp h
  have hwhole := hl.wholeBlocks
  omega

/-- The count is zero exactly outside the busy phases: in a block it stays above zero by the ranges of `T` and `BLK`. -/
theorem stepsLeft_eq_zero_iff {s : State} (h : CoreInv s) : stepsLeft s = 0 ↔ busy s.phase = false := by
  have ht := s.t.isLt
  cases hp : s.phase with
  | idle | done | error | pad80 | padz | padl | ldiv => simp [stepsLeft, hp]
  | ldw | exp | ldv | rnd | fold =>
    have hleft := blocksLeft_pos h (by simp [hp, inBlock])
    simp only [stepsLeft, hp, busy_ldw, busy_exp, busy_ldv, busy_rnd, busy_fold, reduceCtorEq, iff_false]
    omega

/-- A row of the table lowers the count by one, where `PLEN` is kept and `PP` moves on with each padding byte. -/
theorem stepsLeft_seqStep {s t : State} {p : Phase} {n b : Nat} (h : CoreInv s) (hseq : SeqStep s p n b)
    (hphase : t.phase = p) (ht : t.t.toNat = n) (hblk : t.blk.toNat = b) (hplen : t.plen = s.plen)
    (hpp : p = .padz → t.pp.toNat = s.pp.toNat + 1) : stepsLeft t + 1 = stepsLeft s := by
  cases hseq with
  | pad80Zeros hp =>
    obtain ⟨-, -, -, -, hplace, -⟩ := (coreInv_pad80_iff hp).mp h
    have hpp := hplace ▸ hpp rfl
    simp only [stepsLeft, hp, hphase, hplen]
    omega
  | padzMore hp =>
    have hpp := hpp rfl
    simp only [stepsLeft, hp, hphase, hplen]
    omega
  | pad80NoZeros hp | padzLast hp | padlMore hp | padlLast hp | ldiv hp =>
    simp only [stepsLeft, hp, hphase, ht, hblk, hplen]
    omega
  | ldwMore hp | ldwLast hp | expMore hp | expLast hp | ldv hp | rndMore hp | rndLast hp | foldMore hp | foldLast hp =>
    have hleft := blocksLeft_pos h (by simp [hp, inBlock])
    simp only [stepsLeft, hp, hphase, ht, hblk, hplen]
    omega

/-- The rows that lead to `PADZ`. -/
theorem phase_of_seqStep_padz {s : State} {n b : Nat} (h : SeqStep s .padz n b) :
    s.phase = .pad80 ∨ s.phase = .padz := by
  cases h with
  | pad80Zeros hp => exact .inl hp
  | padzMore hp => exact .inr hp

/-- A padding byte stored before the trailer moves `PP` on by one (R143, R144). -/
theorem coreStep_pp {s t : State} (h : CoreInv s) (hp : s.phase = .pad80 ∨ s.phase = .padz)
    (hx : coreStep s = .next t) : t.pp.toNat = s.pp.toNat + 1 := by
  obtain ⟨-, -, hcap⟩ := h.capLegal
  have hlen := h.lenBound
  rcases hp with hp | hp <;> rw [coreStep_eq, hp] at hx
  · obtain ⟨-, rfl⟩ := execPad80_next hx
    obtain ⟨-, -, -, -, hplace, -⟩ := (coreInv_pad80_iff hp).mp h
    rw [hplace]
    exact count_succ (by omega)
  · obtain ⟨hlt, rfl⟩ := execPadz_next hx
    exact count_succ (by omega)

/-! ## What a computation keeps -/

/-- Two states of one computation: the same message of the same length, the same moves to come and no new answer. -/
structure SameCall (s t : State) : Prop where
  len : t.len = s.len
  plen : t.plen = s.plen
  moves : t.moves = s.moves
  responses : t.responses = s.responses
  message : message t = message s

theorem SameCall.refl (s : State) : SameCall s s := ⟨rfl, rfl, rfl, rfl, rfl⟩

theorem SameCall.trans {s t u : State} (h : SameCall s t) (k : SameCall t u) : SameCall s u :=
  ⟨k.len.trans h.len, k.plen.trans h.plen, k.moves.trans h.moves, k.responses.trans h.responses,
    k.message.trans h.message⟩

/-- A padding byte goes above the message (R66). -/
theorem sameCall_store {s : State} {a : Nat} (ha : s.len.toNat ≤ a) (b : Byte) (pp : Count) (n : BitVec 6) (p : Phase) :
    SameCall s { s with mb := mbPut s.mb a b, pp := pp, t := n, phase := p } :=
  ⟨rfl, rfl, rfl, rfl, message_congr rfl fun _ hx => mbGet_mbPut_other _ _ (by omega)⟩

/-- A core step goes on with the same call: only the padding phases store, and they store above the message. -/
theorem sameCall_coreStep {s t : State} (h : CoreInv s) (hx : coreStep s = .next t) : SameCall s t := by
  cases hp : s.phase <;> rw [coreStep_eq, hp] at hx
  case idle | done | error => cases hx; exact .refl s
  case pad80 =>
    obtain ⟨-, rfl⟩ := execPad80_next hx
    exact sameCall_store le_rfl ..
  case padz =>
    obtain ⟨-, rfl⟩ := execPadz_next hx
    obtain ⟨-, -, -, -, ⟨habove, -⟩, -⟩ := (coreInv_padz_iff hp).mp h
    exact sameCall_store (by omega) ..
  case padl =>
    obtain ⟨-, -, rfl⟩ := execPadl_next hx
    obtain ⟨-, hl, -, -, hplace, -⟩ := (coreInv_padl_iff hp).mp h
    have htrail := hl.holdsTrailer
    exact sameCall_store (by omega) ..
  case ldiv => obtain rfl := execLdiv_next hx; exact ⟨rfl, rfl, rfl, rfl, rfl⟩
  case ldw => obtain ⟨-, x, -, rfl⟩ := execLdw_next hx; exact ⟨rfl, rfl, rfl, rfl, rfl⟩
  case exp => obtain ⟨-, rfl⟩ := execExp_next hx; exact ⟨rfl, rfl, rfl, rfl, rfl⟩
  case ldv => obtain rfl := execLdv_next hx; exact ⟨rfl, rfl, rfl, rfl, rfl⟩
  case rnd => obtain rfl := execRnd_next hx; exact ⟨rfl, rfl, rfl, rfl, rfl⟩
  case fold => obtain rfl := execFold_next hx; exact ⟨rfl, rfl, rfl, rfl, rfl⟩

/-- A core step of a busy core brings `DONE` one step nearer. -/
theorem coreStep_counts_down {s t : State} (h : CoreInv s) (hb : busy s.phase = true) (hx : coreStep s = .next t) :
    stepsLeft t + 1 = stepsLeft s := by
  have hseq := seqStep_coreStep h hb hx
  exact stepsLeft_seqStep h hseq rfl rfl rfl (sameCall_coreStep h hx).plen
    fun hz => coreStep_pp h (phase_of_seqStep_padz (hz ▸ hseq)) hx

/-- Settles O52: a core step in a busy phase takes a row of the table, and each row counts down. -/
theorem coreStepsCountDown : Obligations.CoreStepsCountDown := by
  refine fun s h => ⟨stepsLeft_eq_zero_iff h, fun hm hb => ?_⟩
  obtain ⟨t, hx⟩ := coreStep_answers h
  exact ⟨t, (step_of_moves_nil hm).trans hx, coreStep_counts_down h hb hx⟩

end Sys2Proof.Machine
end

section
/-! PROOFS. The digest assembler: the initialisation constants, the digest reads, and a computation as a whole
(44_digest_assembler.md R195 to R198, R203). -/

namespace Sys2Proof.Machine

/-! ## The constants and the reads -/

/-- Settles O26: `LDIV` has no check and no case, and its constants are the ROM's. -/
theorem ldivLoadsConstants : Obligations.LdivLoadsConstants := fun _ => rfl

/-- A digest read with a legal operand is answered in `DONE` (R219 to R221). -/
theorem guardedRead_done {legal : Bool} {s : State} (data : Word) (hl : legal = true) (hp : s.phase = .done) :
    guarded legal (acceptsRead s) s (.next (respondOk data s)) = .next (respondOk data s) := by
  rw [hl, acceptsRead_eq, hp]
  rfl

theorem execRdw_done {i : Byte} {s : State} (hi : i.toNat < 8) (hp : s.phase = .done) :
    exec (.rdw i) s = .next (respondOk s.h[i.toNat] s) := by
  refine (guardedRead_done _ (decide_eq_true (by omega)) hp).trans ?_
  simp only [digestWordAt, Nat.mod_eq_of_lt hi]

theorem execRdb_done {j : Byte} {s : State} (hj : j.toNat < 32) (hp : s.phase = .done) :
    exec (.rdb j) s = .next (respondOk ((digestByte s.h j.toNat hj).setWidth 32) s) := by
  refine (guardedRead_done _ (decide_eq_true (by omega)) hp).trans ?_
  simp only [digestByteAt, Nat.mod_eq_of_lt hj]

theorem execRdx_done {j : Byte} {s : State} (hj : j.toNat < 64) (hp : s.phase = .done) :
    exec (.rdx j) s = .next (respondOk ((digestHexCode s.h j.toNat hj).setWidth 32) s) := by
  refine (guardedRead_done _ (decide_eq_true (by omega)) hp).trans ?_
  simp only [digestCharAt, Nat.mod_eq_of_lt hj]

/-- Settles O47: a read in `DONE` is answered from `H`, which the digest invariant says is the digest. -/
theorem digestReadsAreSha256 : Obligations.DigestReadsAreSha256 := by
  intro s _ hd hp
  obtain ⟨-, hh⟩ := (digestInv_done_iff hp).mp hd
  rw [← hh]
  exact ⟨fun _ hi => execRdw_done hi hp, fun _ hj => execRdb_done hj hp, fun _ hj => execRdx_done hj hp⟩

/-! ## The run of a computation (R203) -/

/-- The state `u` is `n` core steps into the computation that `s` began. -/
structure Computing (s : State) (n : Nat) (u : State) : Prop where
  inv : CoreInv u
  digest : DigestInv u
  call : SameCall s u
  left : stepsLeft u + n = stepsLeft s

theorem Computing.busy {s u : State} {n : Nat} (h : Computing s n u) (hn : n < stepsLeft s) : busy u.phase = true := by
  have hleft := h.left
  have hzero := mt (stepsLeft_eq_zero_iff h.inv).mpr (by omega)
  exact Bool.eq_true_of_not_eq_false hzero

/-- With no move listed, each step of a computation is the core's and counts down. -/
theorem runSteps_computing {s : State} (h : CoreInv s) (hd : DigestInv s) (hm : s.moves = []) {n : Nat}
    (hn : n ≤ stepsLeft s) : ∃ u, runSteps n s = .next u ∧ Computing s n u := by
  induction n with
  | zero => exact ⟨s, rfl, h, hd, .refl s, rfl⟩
  | succ n ih =>
    obtain ⟨u, hrun, hu⟩ := ih (by omega)
    obtain ⟨t, hx⟩ := coreStep_answers hu.inv
    have hcount := coreStep_counts_down hu.inv (hu.busy hn) hx
    have hleft := hu.left
    have hstep : step u = .next t := (step_of_moves_nil (hu.call.moves.trans hm)).trans hx
    exact ⟨t, (runSteps_trans 1 hrun).trans (runSteps_one hstep), coreInv_coreStep hu.inv hx,
      digestInv_coreStep hu.inv hu.digest hx, hu.call.trans (sameCall_coreStep hu.inv hx), by omega⟩

/-- After all its steps a computation is in `DONE`: no other phase without a step has `PLEN` latched. -/
theorem Computing.done {s u : State} (h : Computing s (stepsLeft s) u) (hplen : s.plen ≠ 0#64) : u.phase = .done := by
  have hleft := h.left
  have hlatched := mt h.inv.plenZero.mpr (h.call.plen ▸ hplen)
  rcases (busy_eq_false_iff _).mp ((stepsLeft_eq_zero_iff h.inv).mp (by omega)) with hp | hp | hp
  · exact absurd (.inl hp) hlatched
  · exact hp
  · exact absurd (.inr hp) hlatched

/-! ## The computation an accepted `START` begins -/

theorem started_plen_toNat {s : State} (h : CoreInv s) (hfit : plenOf s.len.toNat ≤ s.cap) :
    (started s).plen.toNat = plenOf s.len.toNat := by
  obtain ⟨-, -, hcap⟩ := h.capLegal
  exact (BitVec.toNat_ofNat ..).trans (Nat.mod_eq_of_lt (by omega))

theorem started_plen_ne_zero {s : State} (h : CoreInv s) (hfit : plenOf s.len.toNat ≤ s.cap) :
    (started s).plen ≠ 0#64 := by
  obtain ⟨-, hroom, -⟩ := plenOf_bounds s.len.toNat
  intro hzero
  have hplen := started_plen_toNat h hfit
  rw [hzero, BitVec.toNat_zero] at hplen
  omega

/-- The number of steps of R203. -/
theorem stepsLeft_started {s : State} (h : CoreInv s) (hfit : plenOf s.len.toNat ≤ s.cap) :
    stepsLeft (started s) = (plenOf s.len.toNat - s.len.toNat) + 1 + 130 * (plenOf s.len.toNat / 64) := by
  rw [← started_plen_toNat h hfit]
  rfl

theorem coreInv_started {s : State} (h : CoreInv s) (hp : s.phase = .idle) (hfit : plenOf s.len.toNat ≤ s.cap) :
    CoreInv (started s) :=
  coreInv_respond _ _ (coreInv_start (coreInv_setMoves [] h) hp hfit)

/-- The steps of a computation begun by `START`, up to any number of them within R203's. -/
theorem runSteps_started {s : State} (h : CoreInv s) (hp : s.phase = .idle) (hfit : plenOf s.len.toNat ≤ s.cap)
    {n : Nat} (hn : n ≤ stepsLeft (started s)) :
    ∃ u, runSteps n (started s) = .next u ∧ Computing (started s) n u :=
  runSteps_computing (coreInv_started h hp hfit) (digestInv_loading (.inr (.inr rfl))) rfl hn

/-- Settles O53: below the number of steps that `START` leaves the count is above zero, at that number it is zero. -/
theorem computationTerminates : Obligations.ComputationTerminates := by
  intro s h hp hm hfit
  rw [← stepsLeft_started h hfit]
  refine ⟨started s, step_start hm hp hfit, rfl, fun n hn => ?_, ?_⟩
  · obtain ⟨u, hrun, hu⟩ := runSteps_started h hp hfit hn.le
    exact ⟨u, hrun, hu.busy hn⟩
  · obtain ⟨u, hrun, hu⟩ := runSteps_started h hp hfit le_rfl
    exact ⟨u, hrun, hu.done (started_plen_ne_zero h hfit)⟩

end Sys2Proof.Machine
end

section
/-! PROOFS. A whole call: `CLR`, the bytes of the message, `START`, with turns of the core anywhere between them, and
the computation that follows (44_digest_assembler.md R204). -/

namespace Sys2Proof.Machine

/-! ## Turns of the core between commands -/

/-- Outside the busy phases listed turns of the core are only taken off the list (R29). -/
theorem runSteps_coreTurns {s : State} {l r : List Move} (hb : busy s.phase = false) (hl : ∀ m ∈ l, m = .core)
    (hm : s.moves = l ++ r) : runSteps l.length s = .next (setMoves r s) := by
  induction l generalizing s with
  | nil => exact congrArg Host.Outcome.next (setMoves_self (l := r) hm).symm
  | cons m l ih =>
    obtain rfl := hl m List.mem_cons_self
    have hstep : step s = .next (setMoves (l ++ r) s) :=
      (step_of_core hm).trans (coreStep_of_not_busy (s := setMoves (l ++ r) s) hb)
    rw [List.length_cons, runSteps_succ _ hstep]
    exact ih hb (fun m hm => hl m (List.mem_cons_of_mem _ hm)) rfl

/-- The next command of a list of moves is served after the turns of the core before it, which do nothing. -/
theorem runSteps_command {s : State} {l r ws : List Move} {cw : CommandWord} (hb : busy s.phase = false)
    (hm : s.moves = l ++ r) (hl : l.filter (· ≠ Move.core) = .command cw :: ws) :
    ∃ k l', l.length = k + 1 + l'.length ∧ l'.filter (· ≠ Move.core) = ws ∧
      ∀ t, hostStep cw (setMoves (l' ++ r) s) = .next t → runSteps (k + 1) s = .next t := by
  obtain ⟨turns, l', rfl, hturns, -, hl'⟩ := List.filter_eq_cons_iff.mp hl
  have hcore : ∀ m ∈ turns, m = .core := by simpa using hturns
  have hrun := runSteps_coreTurns (r := .command cw :: (l' ++ r)) hb hcore (by simpa using hm)
  refine ⟨turns.length, l', by simp; omega, hl', fun t hx => ?_⟩
  exact (runSteps_trans 1 hrun).trans (runSteps_one ((step_of_command rfl).trans hx))

/-- A command takes nothing off the list of moves and puts nothing on it. -/
theorem hostStep_moves {cw : CommandWord} {s t : State} (hx : hostStep cw s = .next t) : t.moves = s.moves := by
  cases hostStep_commandEffect hx <;> rfl

/-! ## Loading the message -/

/-- A byte stored at `LEN` with `LEN` moved on is one more byte of the message (R217). -/
theorem message_push {s : State} (hlt : s.len.toNat < 2 ^ 63) (b : Byte) :
    message { s with mb := mbPut s.mb s.len.toNat b, len := s.len + 1#64 } = message s ++ [b] := by
  have hkept (a : Nat) (ha : a ∈ List.range s.len.toNat) :
      (mbGet (mbPut s.mb s.len.toNat b) a).getD 0#8 = (mbGet s.mb a).getD 0#8 := by
    rw [mbGet_mbPut_other _ _ (List.mem_range.mp ha).ne]
  simp only [message, count_succ hlt, List.range_succ, List.map_append, List.map_congr_left hkept, List.map_singleton,
    mbGet_mbPut_same, Option.getD_some]

/-- Since the `CLR` of a call from `s0` the bytes `P` have been pushed, and all of it was answered `(OK, 0)`. -/
structure Loaded (s0 : State) (P : List Byte) (s : State) : Prop where
  idle : s.phase = .idle
  message : message s = P
  responses : s.responses = s0.responses ++ List.replicate (P.length + 1) ⟨.ok, 0#32⟩

theorem Loaded.len {s0 s : State} {P : List Byte} (h : Loaded s0 P s) : s.len.toNat = P.length := by
  rw [← message_length, h.message]

/-- The pushes of `P` after the `CLR` of a call from `s0`: loaded while they fit the buffer, in `ERROR` from the first
that does not. -/
structure Pushed (s0 : State) (P : List Byte) (s : State) : Prop where
  inv : CoreInv s
  cap : s.cap = s0.cap
  fits : P.length ≤ s0.cap → Loaded s0 P s
  full : s0.cap < P.length → s.phase = .error

theorem Pushed.not_busy {s0 s : State} {P : List Byte} (h : Pushed s0 P s) : busy s.phase = false := by
  rcases Nat.lt_or_ge s0.cap P.length with hover | hfit
  · rw [h.full hover]; rfl
  · rw [(h.fits hfit).idle]; rfl

theorem pushed_setMoves {s0 s : State} {P : List Byte} (l : List Move) (h : Pushed s0 P s) :
    Pushed s0 P (setMoves l s) :=
  ⟨coreInv_setMoves l h.inv, h.cap, fun hfit => ⟨(h.fits hfit).idle, (h.fits hfit).message, (h.fits hfit).responses⟩,
    h.full⟩

/-- `CLR` begins the call with nothing pushed (R216). -/
theorem pushed_clr {s0 s : State} (h : CoreInv s) (hb : busy s.phase = false) (hcap : s.cap = s0.cap)
    (hresp : s.responses = s0.responses) :
    ∃ t, hostStep 0x0100#16 s = .next t ∧ Pushed s0 [] t := by
  refine ⟨respondOk 0#32 (clearControl s), ?_, coreInv_respond _ _ (coreInv_clearControl h.bufferOk), hcap,
    fun _ => ⟨rfl, rfl, congrArg (· ++ _) hresp⟩, fun hlt => absurd hlt (Nat.not_lt_zero _)⟩
  show guarded true (acceptsClr s) s _ = _
  rw [acceptsClr_eq, hb]
  rfl

theorem decodeCommand_push (b : Byte) : decodeCommand (commandWord 0x02#8 b) = .ok (.push b) :=
  decodeCommand_of_encode (i := .push b) rfl

/-- Each `PUSH` adds its byte, is the first that does not fit, or is refused in `ERROR` (R217). -/
theorem Pushed.push {s0 s : State} {P : List Byte} (h : Pushed s0 P s) (b : Byte) :
    ∃ t, hostStep (commandWord 0x02#8 b) s = .next t ∧ Pushed s0 (P ++ [b]) t := by
  obtain ⟨t, hx⟩ := hostStep_answers h.inv.lenBound (commandWord 0x02#8 b)
  have heffect := hostStep_commandEffect hx
  obtain ⟨hcap, -⟩ := heffect.datapath
  have hpush : execPush b s = .next t := by rwa [hostStep, decodeCommand_push] at hx
  have hscap := h.cap
  refine ⟨t, hx, heffect.keeps_coreInv h.inv, hcap.trans hscap, fun hfit => ?_, fun hover => ?_⟩
  · rw [List.length_append, List.length_singleton] at hfit
    have hloaded := h.fits (by omega)
    have hlen := hloaded.len
    rcases execPush_next hpush with ⟨hp, -⟩ | ⟨-, hfull, -⟩ | ⟨-, -, rfl⟩
    · exact absurd hloaded.idle hp
    · omega
    · obtain ⟨-, -, hsmall⟩ := h.inv.capLegal
      refine ⟨hloaded.idle, (message_push (by omega) b).trans (by rw [hloaded.message]), ?_⟩
      rw [respondOk_responses, hloaded.responses, List.append_assoc, ← List.replicate_succ', List.length_append]
      rfl
  · rw [List.length_append, List.length_singleton] at hover
    rcases execPush_next hpush with ⟨hp, rfl⟩ | ⟨-, -, rfl⟩ | ⟨hp, hroom, -⟩
    · refine h.full (Nat.lt_of_not_le fun hfit => hp (h.fits hfit).idle)
    · rfl
    · rcases Nat.lt_or_ge s0.cap P.length with hlt | hge
      · simp [h.full hlt] at hp
      · have hlen := (h.fits hge).len
        omega

/-- The bytes of a message, pushed in order. -/
theorem runSteps_pushes {s0 s : State} {P N : List Byte} {l r : List Move} (h : Pushed s0 P s) (hm : s.moves = l ++ r)
    (hl : l.filter (· ≠ Move.core) = (pushsWords N).map Move.command) :
    ∃ t, runSteps l.length s = .next t ∧ t.moves = r ∧ Pushed s0 (P ++ N) t := by
  induction N generalizing P l s with
  | nil =>
    have hcore : ∀ m ∈ l, m = .core := by simpa [pushsWords] using hl
    exact ⟨_, runSteps_coreTurns h.not_busy hcore hm, rfl, by rw [List.append_nil]; exact pushed_setMoves r h⟩
  | cons b N ih =>
    obtain ⟨k, l', hlen, hl', hserved⟩ := runSteps_command h.not_busy hm hl
    obtain ⟨t, hx, ht⟩ := (pushed_setMoves (l' ++ r) h).push b
    obtain ⟨u, hrun, hmoves, hu⟩ := ih ht (hostStep_moves hx) hl'
    refine ⟨u, ?_, hmoves, by simpa using hu⟩
    rw [hlen, runSteps_trans _ (hserved t hx), hrun]

/-- `CLR` and the pushes, from any state that is not busy. -/
theorem runSteps_loading {s : State} {M : List Byte} {l r : List Move} (h : CoreInv s) (hb : busy s.phase = false)
    (hm : s.moves = l ++ r)
    (hl : l.filter (· ≠ Move.core) = .command 0x0100#16 :: (pushsWords M).map Move.command) :
    ∃ t, runSteps l.length s = .next t ∧ t.moves = r ∧ Pushed s M t := by
  obtain ⟨k, l', hlen, hl', hserved⟩ := runSteps_command hb hm hl
  obtain ⟨t, hx, ht⟩ := pushed_clr (s0 := s) (coreInv_setMoves (l' ++ r) h) hb rfl rfl
  obtain ⟨u, hrun, hmoves, hu⟩ := runSteps_pushes ht (hostStep_moves hx) hl'
  refine ⟨u, ?_, hmoves, hu⟩
  rw [hlen, runSteps_trans _ (hserved t hx), hrun]

/-! ## `START` and the computation -/

/-- A `START` on a message that does not fit ends in `ERROR`, if a push has not already (R218). -/
theorem Pushed.start_error {s0 s : State} {M : List Byte} (h : Pushed s0 M s) (hm : s.moves = [.command 0x0300#16])
    (hover : s.cap < plenOf M.length) : ∃ t, step s = .next t ∧ t.phase = .error := by
  obtain ⟨t, hx⟩ := execStart_answers 0#8 (setMoves [] s)
  refine ⟨t, (step_of_decoded (i := .start 0#8) hm rfl).trans hx, ?_⟩
  rcases execStart_next hx with ⟨hne, -⟩ | ⟨-, hp, rfl⟩ | ⟨-, -, -, rfl⟩ | ⟨-, hp, hfit, -⟩
  · exact absurd rfl hne
  · exact h.full (Nat.lt_of_not_le fun hfit => hp (h.fits hfit).idle)
  · rfl
  · rcases Nat.lt_or_ge s0.cap M.length with hlt | hge
    · simp [h.full hlt] at hp
    · rw [setMoves_len, (h.fits hge).len, setMoves_cap] at hfit
      omega

/-- The machine in `DONE` with the digest of `M` in `H` and the padded `M` in the buffer (R204). -/
structure HoldsDigest (M : List Byte) (u : State) : Prop where
  done : u.phase = .done
  digest : u.h = sha256Words M
  padded : ∀ x, x < plenOf M.length → mbGet u.mb x = (pad M)[x]?
  len : u.len.toNat = M.length
  plen : u.plen.toNat = plenOf M.length
  blocks : 64 * u.blk.toNat = plenOf M.length

/-- A computation ends with the digest of the message it began with. -/
theorem Computing.holdsDigest {s u : State} (h : Computing s (stepsLeft s) u) (hplen : s.plen ≠ 0#64) :
    HoldsDigest (message s) u := by
  have hdone := h.done hplen
  obtain ⟨-, hl, -, -, -, hblk, -⟩ := (coreInv_done_iff hdone).mp h.inv
  obtain ⟨hpad, hh⟩ := (digestInv_done_iff hdone).mp h.digest
  have hlatched := hl.plen_eq_plenOf
  rw [← h.call.message]
  exact ⟨hdone, hh, fun x hx => (hpad x (hlatched ▸ hx)).trans (pad_getElem? _ hx).symm, (message_length u).symm,
    hlatched, hblk.trans hlatched⟩

/-- With the message loaded and room for its padding, `START` is accepted, and after the steps of R203 the machine
holds the digest. -/
theorem started_holdsDigest {s0 s : State} {M : List Byte} (h : Loaded s0 M s) (hinv : CoreInv s)
    (hm : s.moves = [.command 0x0300#16]) (hfit : plenOf M.length ≤ s.cap) :
    step s = .next (started s) ∧
      (started s).responses = s0.responses ++ List.replicate (M.length + 2) ⟨.ok, 0#32⟩ ∧
      ∃ u, runSteps ((plenOf M.length - M.length) + 1 + 130 * (plenOf M.length / 64)) (started s) = .next u ∧
        HoldsDigest M u ∧ u.responses = (started s).responses := by
  have hlen := h.len
  rw [← hlen] at hfit
  obtain ⟨u, hrun, hu⟩ := runSteps_started hinv h.idle hfit le_rfl
  have hmessage : message (started s) = M := h.message
  have hdigest := hu.holdsDigest (started_plen_ne_zero hinv hfit)
  rw [hmessage] at hdigest
  rw [stepsLeft_started hinv hfit, hlen] at hrun
  refine ⟨step_start hm h.idle hfit, ?_, u, hrun, hdigest, hu.call.responses⟩
  show s.responses ++ [⟨.ok, 0#32⟩] = _
  rw [h.responses, List.append_assoc, ← List.replicate_succ']

/-- Settles O58: `CLR` and the pushes load the message, `START` begins the computation or ends in `ERROR`. -/
theorem hashCallEndToEnd : Obligations.HashCallEndToEnd := by
  intro s M ms h hb hm hcall
  have hload : ms.filter (· ≠ Move.core) = .command 0x0100#16 :: (pushsWords M).map Move.command := by
    refine List.append_cancel_right (bs := [Move.command 0x0300#16]) ?_
    simpa [hm, callWords] using hcall
  obtain ⟨v, hrun, hmoves, hv⟩ := runSteps_loading h hb hm hload
  obtain ⟨-, -, -, -, -, -, hcapacity⟩ := paddedLengthAndCapacity M.length
  have hfits : plenOf M.length ≤ v.cap ↔ M.length + 9 ≤ s.cap := hv.cap ▸ hcapacity s.cap h.capLegal
  refine ⟨fun hfit => ?_, fun hover => ?_⟩
  · obtain ⟨hstart, hresp, u, hcomp, hu, hkept⟩ :=
      started_holdsDigest (hv.fits (by omega)) hv.inv hmoves (hfits.mpr hfit)
    exact ⟨started v, u, (runSteps_trans 1 hrun).trans (runSteps_one hstart), rfl, hresp, hcomp, hu.done, hu.digest,
      hu.padded, hu.len, hu.plen, hu.blocks, hkept⟩
  · obtain ⟨t, hx, ht⟩ := hv.start_error hmoves (by omega)
    exact ⟨t, (runSteps_trans 1 hrun).trans (runSteps_one hx), ht⟩

end Sys2Proof.Machine
end

section
/-! PROOFS. The host commands one by one: what each answers in every phase, the acceptance table, and what the reading
commands and `PUSH` leave alone (45_host_commands.md R215 to R223). -/

namespace Sys2Proof.Machine

/-! ## The two checks and the command (R246) -/

/-- From `s` to `t` exactly one response was added, and it is no interface error. -/
def Accepted (s t : State) : Prop := ∃ r, t.responses = s.responses ++ [r] ∧ r.rc ≠ .errIf

theorem accepted_respondOk {s u : State} (data : Word) (h : u.responses = s.responses) :
    Accepted s (respondOk data u) := ⟨⟨.ok, data⟩, by rw [respondOk_responses, h], nofun⟩

theorem accepted_raiseRes (e : ErrorCode) (s : State) : Accepted s (raiseRes e s) :=
  ⟨⟨.errRes, (ecodeCode e).setWidth 32⟩, raiseRes_responses e s, nofun⟩

/-- Every command is the check of its operand, the check of the acceptance table, and then an effect that is answered
with no interface error (R223, R246). -/
theorem exec_command_checked {i : Instr} (hi : i.isCommand = true) (s : State) :
    ∃ accepted k, exec i s = guarded i.operandLegal accepted s k ∧ (accepted = true ↔ ¬refusedInPhase i s.phase) ∧
      ∀ t, k = .next t → Accepted s t := by
  cases i with
  | nop | clr | rdw | rdb | rdx | rds =>
    refine ⟨_, _, rfl, by simp [refusedInPhase], fun t hk => ?_⟩
    cases hk
    exact accepted_respondOk _ rfl
  | push b =>
    refine ⟨_, _, rfl, by simp [refusedInPhase], fun t hk => ?_⟩
    split at hk
    · cases hk
      exact accepted_raiseRes _ s
    · obtain ⟨m, -, hk⟩ := andThen_next hk
      cases hk
      exact accepted_respondOk _ rfl
  | start imm =>
    refine ⟨_, _, rfl, by simp [refusedInPhase], fun t hk => ?_⟩
    split at hk <;> cases hk
    · exact accepted_raiseRes _ s
    · exact accepted_respondOk _ rfl
  | pad80 | padz | padl | ldiv | ldw | exp | ldv | rnd | fold => cases hi

/-- A well-formed command the table refuses is `IfError(3)` and changes nothing (R223, R241). -/
theorem exec_refusedInPhase {i : Instr} {s : State} (hi : i.isCommand = true) (hwf : i.WellFormed)
    (href : refusedInPhase i s.phase) :
    exec i s = .next { s with responses := s.responses ++ [⟨.errIf, 3#32⟩] } := by
  obtain ⟨accepted, k, hx, haccepted, -⟩ := exec_command_checked hi s
  have hfalse : accepted = false := Bool.eq_false_of_not_eq_true fun h => haccepted.mp h href
  rw [hx, hwf, hfalse]
  rfl

/-- A well-formed command the table accepts is answered with no interface error. -/
theorem exec_accepted {i : Instr} {s t : State} (hi : i.isCommand = true) (hwf : i.WellFormed)
    (hacc : ¬refusedInPhase i s.phase) (hx : exec i s = .next t) : Accepted s t := by
  obtain ⟨accepted, k, hguard, haccepted, hk⟩ := exec_command_checked hi s
  rw [hguard, hwf, haccepted.mpr hacc] at hx
  exact hk t hx

/-- Settles O19: a command is refused or accepted as the table says, and in a busy phase it can only be answered. -/
theorem acceptanceByPhase : Obligations.AcceptanceByPhase := by
  intro i s hi hwf hlen
  obtain ⟨t, hx⟩ := exec_command_answers hi hlen
  refine ⟨exec_refusedInPhase hi hwf, fun hacc => ?_, fun hb => ?_⟩
  · obtain ⟨r, hr, hrc⟩ := exec_accepted hi hwf hacc hx
    exact ⟨t, r, hx, hr, hrc⟩
  · obtain ⟨rc, data, rfl⟩ := (exec_commandEffect hi hx).answered_of_busy hb
    exact ⟨⟨rc, data⟩, hx⟩

/-- A command whose operand and phase pass the checks is performed. -/
theorem guarded_of_checks {legal accepted : Bool} (hl : legal = true) (ha : accepted = true) (s : State) (k : Result) :
    guarded legal accepted s k = k := by
  rw [hl, ha, guarded_true]

/-! ## `NOP` and `CLR` -/

/-- Settles O11: by the operand. -/
theorem nopAnswersOk : Obligations.NopAnswersOk := by
  intro imm s
  refine ⟨?_, fun hne => illFormedOperandRefused (.nop imm) s rfl (mt eq_of_beq hne)⟩
  rintro rfl
  rfl

/-- Settles O12: by the operand and whether the core is busy. -/
theorem clrBeginsFreshCall : Obligations.ClrBeginsFreshCall := by
  intro imm s
  refine ⟨?_, ?_, fun hne => illFormedOperandRefused (.clr imm) s rfl (mt eq_of_beq hne)⟩
  · rintro rfl hb
    exact guarded_of_checks rfl (by rw [acceptsClr_eq, hb, Bool.not_false]) s _
  · rintro rfl hb
    exact exec_refusedInPhase rfl rfl hb

/-! ## `PUSH` -/

/-- In `IDLE` with room in the buffer the byte is stored at `LEN` (R217). -/
theorem execPush_of_room {s : State} (hp : s.phase = .idle) (hlt : s.len.toNat < s.cap) (b : Byte) :
    execPush b s =
      .next (respondOk 0#32 { s with mb := mbPut s.mb s.len.toNat b, len := s.len + 1#64 }) := by
  refine (guarded_of_checks rfl (decide_eq_true hp) s _).trans ?_
  rw [if_neg hlt.ne, memWrite1_of_lt hlt, andThen_ok]

/-- In `IDLE` with a full buffer the command ends in `ERROR` (R217). -/
theorem execPush_of_full {s : State} (hp : s.phase = .idle) (hfull : s.len.toNat = s.cap) (b : Byte) :
    execPush b s = .next (raiseRes .pushFull s) :=
  (guarded_of_checks rfl (decide_eq_true hp) s _).trans (if_pos hfull)

/-- Settles O13: by the phase and the room in the buffer. -/
theorem pushAppendsByte : Obligations.PushAppendsByte := by
  intro b s
  refine ⟨fun hp hlt => ?_, fun hp hfull => execPush_of_full hp hfull b,
    fun hp => exec_refusedInPhase (i := .push b) rfl rfl hp⟩
  refine ⟨_, execPush_of_room hp hlt b, rfl, fun x => mbGet_mbPut .., fun ⟨_, _, hcap⟩ => ?_⟩
  exact count_succ (by omega)

/-- Settles O34: the one store leaves every other byte, and the registers of the frame are none of those the update
names. -/
theorem pushFrame : Obligations.PushFrame := by
  intro b s t hx
  rcases execPush_next hx with ⟨-, rfl⟩ | ⟨-, -, rfl⟩ | ⟨-, -, rfl⟩
  · simp
  · simp
  · exact ⟨fun x hne => mbGet_mbPut_other s.mb b hne, rfl, rfl, rfl, rfl, rfl, rfl, rfl, rfl, rfl, rfl⟩

/-! ## `START` -/

/-- The padded length as R218 writes it. -/
theorem plenOf_eq_ceil (L : Nat) : plenOf L = 64 * ((L + 9 + 63) / 64) := plenOf_eq L

/-- A length up to a legal `CAP` is not cut by the 64 bits of its register (R6, R7). -/
theorem toNat_ofNat_of_le_cap {cap n : Nat} (hcap : Config.CapLegal cap) (hn : n ≤ cap) :
    (BitVec.ofNat 64 n).toNat = n := by
  obtain ⟨-, -, hmax⟩ := hcap
  rw [BitVec.toNat_ofNat, Nat.mod_eq_of_lt (by omega)]

/-- In `IDLE` with room for the padding the lengths are latched (R218). -/
theorem execStart_of_fits {s : State} (hp : s.phase = .idle) (hfit : plenOf s.len.toNat ≤ s.cap) :
    execStart 0#8 s = .next (respondOk 0#32
      (setSeq .pad80 0#64 0#6 { s with plen := BitVec.ofNat 64 (plenOf s.len.toNat), pp := s.len })) :=
  (guarded_of_checks rfl (decide_eq_true hp) s _).trans (if_neg hfit.not_gt)

/-- In `IDLE` without that room the command ends in `ERROR` (R218). -/
theorem execStart_of_over {s : State} (hp : s.phase = .idle) (hover : s.cap < plenOf s.len.toNat) :
    execStart 0#8 s = .next (raiseRes .startCap s) :=
  (guarded_of_checks rfl (decide_eq_true hp) s _).trans (if_pos hover)

/-- Settles O14: by the operand, the phase and the room for the padding. -/
theorem startLatchesLengths : Obligations.StartLatchesLengths := by
  intro imm s
  rw [← plenOf_eq_ceil]
  refine ⟨?_, ?_, ?_, fun hne => illFormedOperandRefused (.start imm) s rfl (mt eq_of_beq hne)⟩
  · rintro rfl hp hfit
    exact ⟨_, execStart_of_fits hp hfit, rfl, fun hcap => toNat_ofNat_of_le_cap hcap hfit⟩
  · rintro rfl hp hover
    exact execStart_of_over hp hover
  · rintro rfl hp
    exact exec_refusedInPhase rfl rfl hp

/-! ## The digest reads -/

/-- Settles O15: by the operand and whether the phase is `DONE`. -/
theorem rdwReturnsDigestWord : Obligations.RdwReturnsDigestWord := fun i s =>
  ⟨fun hi hp => execRdw_done hi hp,
    fun hi hp => exec_refusedInPhase (i := .rdw i) rfl (decide_eq_true hi) hp,
    fun hi => illFormedOperandRefused (.rdw i) s rfl (mt of_decide_eq_true hi.not_ge)⟩

/-- Settles O16: by the operand and whether the phase is `DONE`; the byte answered is that of `digest_bytes`. -/
theorem rdbReturnsDigestByte : Obligations.RdbReturnsDigestByte := by
  intro j s
  refine ⟨fun hj hp => ⟨_, execRdb_done hj hp, ?_⟩,
    fun hj hp => exec_refusedInPhase (i := .rdb j) rfl (decide_eq_true hj) hp,
    fun hj => illFormedOperandRefused (.rdb j) s rfl (mt of_decide_eq_true hj.not_ge)⟩
  rw [BitVec.toNat_setWidth_of_le (by decide), digestByte, byteOfWord_toNat]

/-- The code of a digit is counted from `0x30` below ten, and so that ten falls on `0x61` from there on (R197). -/
theorem hexCode_toNat (n : BitVec 4) :
    (hexCode n).toNat = if n.toNat < 10 then 0x30 + n.toNat else 0x57 + n.toNat := by
  have := n.isLt
  unfold hexCode
  split <;> simp <;> omega

/-- Settles O17: by the operand and whether the phase is `DONE`; the code answered is that of `digest_hex`. -/
theorem rdxReturnsHexCharacter : Obligations.RdxReturnsHexCharacter := by
  intro j s
  refine ⟨fun hj hp => ⟨_, _, execRdx_done hj hp, rfl, ?_⟩,
    fun hj hp => exec_refusedInPhase (i := .rdx j) rfl (decide_eq_true hj) hp,
    fun hj => illFormedOperandRefused (.rdx j) s rfl (mt of_decide_eq_true hj.not_ge)⟩
  rw [BitVec.toNat_setWidth_of_le (by decide), digestHexCode, hexCode_toNat, nibbleOfWord_toNat]

/-! ## `RDS` -/

/-- Appending a bit below a value is one step of Horner's rule in base 2. -/
theorem toNat_append_bit {w : Nat} (x : BitVec w) (b : Bool) :
    (x ++ BitVec.ofBool b).toNat = 2 * x.toNat + b.toNat := by
  rw [BitVec.toNat_append, ← Nat.shiftLeft_add_eq_or_of_lt (BitVec.ofBool b).isLt, Nat.shiftLeft_eq,
    BitVec.toNat_ofBool, Nat.mul_comm]

/-- `STATUS` by its fields (R40). -/
theorem statusWord_toNat (s : State) : (statusWord s).toNat =
    (flagRdy s).toNat + 2 * (flagBusy s).toNat + 4 * (flagValid s).toNat + 8 * (flagErr s).toNat
      + 16 * (ecodeCode s.ecode).toNat := by
  have hecode : (0#26 ++ ecodeCode s.ecode).toNat = (ecodeCode s.ecode).toNat := by
    rw [BitVec.toNat_append]
    simp
  rw [statusWord, toNat_append_bit, toNat_append_bit, toNat_append_bit, toNat_append_bit, hecode]
  omega

/-- Where `ECODE` is set exactly in `ERROR`, `STATUS` takes one value for each flag, and for `ERR` one for each code
(R40). -/
theorem statusWord_values {s : State} (h : s.ecode ≠ .none ↔ s.phase = .error) :
    statusWord s = 0x00000001#32 ∨ statusWord s = 0x00000002#32 ∨ statusWord s = 0x00000004#32 ∨
      statusWord s = 0x00000018#32 ∨ statusWord s = 0x00000028#32 := by
  cases hp : s.phase with
  | error =>
    cases he : s.ecode with
    | none => exact absurd he (h.mpr hp)
    | pushFull | startCap => simp [statusWord, hp, he, ecodeCode]
  | idle | done | pad80 | padz | padl | ldiv | ldw | exp | ldv | rnd | fold =>
    have he : s.ecode = .none := by simpa [hp] using h
    simp [statusWord, hp, he, ecodeCode]

/-- Settles O18: by the operand; the flags by the phase, the code by `ECODE`. -/
theorem rdsReturnsStatus : Obligations.RdsReturnsStatus := by
  intro imm s
  refine ⟨fun hne => illFormedOperandRefused (.rds imm) s rfl (mt eq_of_beq hne), ?_⟩
  rintro rfl
  refine ⟨statusWord s, rfl, ?_, statusWord_values⟩
  rw [statusWord_toNat]
  refine congrArg₂ (· + ·) ?_ ?_
  · cases hp : s.phase <;> simp [hp]
  · cases s.ecode <;> rfl

/-! ## The frame of the reading commands -/

/-- A checked command whose only effect is its answer can only be answered. -/
theorem guarded_respondOk_next {legal accepted : Bool} {data : Word} {s t : State}
    (h : guarded legal accepted s (.next (respondOk data s)) = .next t) : ∃ rc d, t = respond rc d s := by
  rcases guarded_next h with ⟨-, rfl⟩ | ⟨-, -, rfl⟩ | ⟨-, -, h⟩
  · exact ⟨.errIf, ifSub .operand, rfl⟩
  · exact ⟨.errIf, ifSub .phase, rfl⟩
  · cases h
    exact ⟨.ok, data, rfl⟩

/-- Settles O32: each of the five can only be answered. -/
theorem readingCommandsFrame : Obligations.ReadingCommandsFrame := by
  intro i s t hi hx
  have hanswered : ∃ rc d, t = respond rc d s := by
    rcases hi with ⟨_, rfl⟩ | ⟨_, rfl⟩ | ⟨_, rfl⟩ | ⟨_, rfl⟩ | ⟨_, rfl⟩ <;> exact guarded_respondOk_next hx
  obtain ⟨rc, d, rfl⟩ := hanswered
  simp

end Sys2Proof.Machine
end

section
/-! PROOFS. The `ERROR` phase: only `CLR` and RESET leave it, and until then nothing but answers is added
(60_exceptions.md R242, R252, R253). -/

namespace Sys2Proof.Machine

/-- Of the command words only that of `CLR` leaves `ERROR` (R242, R252). -/
theorem hostStep_keeps_error {cw : CommandWord} {s t : State} (hp : s.phase = .error) (hcw : cw ≠ 0x0100#16)
    (hx : hostStep cw s = .next t) : t.phase = .error := by
  rcases hostSeqStep_hostStep hx with ⟨hkept, -⟩ | ⟨-, -, hidle, -⟩ | ⟨-, -, herror, -⟩ | ⟨hclr, -⟩
  · exact hkept.trans hp
  · simp [hp] at hidle
  · exact herror
  · exact absurd hclr hcw

/-- A command that finds the core in `ERROR` and leaves it there can only be answered (R242). -/
theorem CommandEffect.answered_of_error {s t : State} (h : CommandEffect s t) (hs : s.phase = .error)
    (ht : t.phase = .error) : ∃ rc data, t = respond rc data s := by
  cases h with
  | answered rc data => exact ⟨rc, data, rfl⟩
  | cleared => cases ht
  | failed hp | pushed hp | started hp => simp [hp] at hs

/-- Settles O49: the core has no step in `ERROR`, and a word that is not `CLR` can only be answered. -/
theorem errorPhaseIsSticky : Obligations.ErrorPhaseIsSticky := by
  intro s t hp hreset hclr hx
  have hidle : ∀ rest, coreStep (setMoves rest s) = .next (setMoves rest s) := fun rest =>
    coreStep_of_not_busy (s := setMoves rest s) (congrArg busy hp)
  rcases step_next hx with ⟨hm, -⟩ | ⟨cw, rest, hm, hx⟩ | ⟨rest, hm, hx⟩ | ⟨rest, hm, -⟩
  · rw [step_of_coreTurn (.inr ⟨hm, rfl⟩), hidle] at hx
    cases hx
    simp [hm, setMoves]
  · have hcw : cw ≠ 0x0100#16 := fun hcw => hclr rest (hcw ▸ hm)
    have ht := hostStep_keeps_error (s := setMoves rest s) hp hcw hx
    obtain ⟨rc, data, rfl⟩ := (hostStep_commandEffect hx).answered_of_error hp ht
    simp [hm, respond, setMoves]
  · rw [hidle] at hx
    cases hx
    simp [hm, setMoves]
  · exact absurd hm (hreset rest)

end Sys2Proof.Machine
end

section
/-! PROOFS. RESET, and a run that is a call `digest(M)`: it ends well, and a run that ended well left the digest of `M`
in `H` (70_reset_and_hazards.md R270, R276, R288). -/

namespace Sys2Proof.Machine

/-! ## The RESET event (R270) -/

theorem step_of_reset {s : State} {rest : List Move} (h : s.moves = .reset :: rest) :
    step s = .next (resetCore (setMoves rest s)) := by simp [step, systemStep, h]

/-- Settles O40: the step is `resetCore`, which clears the control registers and keeps what is not the core's. -/
theorem resetEventClearsControl : Obligations.ResetEventClearsControl := fun _ _ hm =>
  ⟨_, step_of_reset hm, rfl, rfl, rfl, rfl, rfl, rfl, rfl, rfl, rfl, rfl⟩

/-! ## The command words of a call (R103) -/

theorem opField_of_mem_pushsWords {cw : CommandWord} {N : List Byte} (h : cw ∈ pushsWords N) : opField cw = 0x02#8 := by
  obtain ⟨b, -, rfl⟩ := List.mem_map.mp h
  exact opField_append ..

/-- The word of `RDW k`. -/
def rdwWord (k : Fin 8) : CommandWord := commandWord 0x04#8 (BitVec.ofNat 8 k)

theorem decodeCommand_rdwWord (k : Fin 8) : decodeCommand (rdwWord k) = .ok (.rdw (BitVec.ofNat 8 k)) :=
  (decodeCommand_of_encode (i := .rdw (BitVec.ofNat 8 k)) rfl).trans
    (if_pos (decide_eq_true (by rw [BitVec.toNat_ofNat]; omega)))

/-- `RDIGEST` reads all the words of `H`, in order (R103). -/
theorem rdigestWords_eq : rdigestWords = (List.finRange 8).map rdwWord := by decide

/-- The commands of a call are none of them polls. -/
theorem ne_poll_of_mem_call {cw : CommandWord} {M : List Byte} (h : cw ∈ callWords M ++ rdigestWords) :
    cw ≠ 0x0700#16 := by
  rintro rfl
  rcases List.mem_append.mp h with h | h
  · have hpush : 0x0700#16 ∈ pushsWords M := by simpa [callWords] using h
    exact absurd (opField_of_mem_pushsWords hpush) (by decide)
  · exact absurd h (by decide)

/-- After a `CLR` the rest of a call has no other. -/
theorem clr_notMem_rest (N : List Byte) : 0x0100#16 ∉ pushsWords N ++ 0x0300#16 :: rdigestWords := by
  intro h
  rcases List.mem_append.mp h with h | h
  · exact absurd (opField_of_mem_pushsWords h) (by decide)
  · exact absurd h (by decide)

/-- A read of the digest, in whatever phase, can only be answered (R219). -/
theorem hostStep_rdigest_next {cw : CommandWord} {s t : State} (hcw : cw ∈ rdigestWords)
    (hx : hostStep cw s = .next t) : ∃ rc data, t = respond rc data s := by
  rw [rdigestWords_eq] at hcw
  obtain ⟨k, -, rfl⟩ := List.mem_map.mp hcw
  rw [hostStep, decodeCommand_rdwWord] at hx
  exact guarded_respondOk_next hx

/-- A poll, in whatever phase, can only be answered (R222). -/
theorem hostStep_poll_next {s t : State} (hx : hostStep 0x0700#16 s = .next t) : ∃ rc data, t = respond rc data s :=
  guarded_respondOk_next (legal := true) (accepted := true) hx

/-! ## Where a call stands -/

/-- The command words of a list of moves without the polls of `WAIT` (R103, R276). -/
def callCommands (l : List Move) : List CommandWord := (commandsOf l).filter (· ≠ 0x0700#16)

theorem callCommands_command {cw : CommandWord} (hcw : cw ≠ 0x0700#16) (l : List Move) :
    callCommands (.command cw :: l) = cw :: callCommands l :=
  List.filter_cons_of_pos (decide_eq_true hcw)

/-- Where a call `digest(M)` stands in the state `s` with the commands `ws` still to come: before its `CLR`; with part
of `M` pushed; past its `START`, with the digest invariant to say what the registers hold; or in `ERROR`, which no
command to come leaves. -/
inductive CallStage (M : List Byte) (ws : List CommandWord) (s : State) : Prop
  | fresh (hb : busy s.phase = false) (hws : ws = callWords M ++ rdigestWords)
  | loading (N : List Byte) (hp : s.phase = .idle) (hM : message s ++ N = M)
      (hws : ws = pushsWords N ++ 0x0300#16 :: rdigestWords)
  | computing (hd : DigestInv s) (hM : message s = M) (hws : ws ⊆ rdigestWords)
  | failed (hp : s.phase = .error) (hws : 0x0100#16 ∉ ws)

namespace CallStage

variable {M : List Byte} {ws : List CommandWord} {cw : CommandWord} {s t : State}

/-- A call stands where it stood while the phase, the message and what the registers hold are kept. -/
theorem of_kept (h : CallStage M ws s) (hphase : t.phase = s.phase) (hmessage : message t = message s)
    (hdigest : DigestInv s → DigestInv t) : CallStage M ws t := by
  cases h with
  | fresh hb hws => exact .fresh (hphase ▸ hb) hws
  | loading N hp hM hws => exact .loading N (hphase.trans hp) (hmessage ▸ hM) hws
  | computing hd hM hws => exact .computing (hdigest hd) (hmessage.trans hM) hws
  | failed hp hws => exact .failed (hphase.trans hp) hws

theorem after_setMoves (l : List Move) (h : CallStage M ws s) : CallStage M ws (setMoves l s) :=
  h.of_kept rfl rfl id

theorem after_respond (rc : RespCode) (data : Word) (h : CallStage M ws s) : CallStage M ws (respond rc data s) :=
  h.of_kept rfl rfl id

/-- A turn of the core does something past `START` only, and there it goes on with the same computation. -/
theorem after_coreStep (h : CallStage M ws s) (hinv : CoreInv s) (hx : coreStep s = .next t) : CallStage M ws t := by
  have hstays (hb : busy s.phase = false) : t = s :=
    Host.Outcome.next.inj (hx.symm.trans (coreStep_of_not_busy hb))
  cases h with
  | fresh hb hws => exact hstays hb ▸ .fresh hb hws
  | loading N hp hM hws => exact hstays (congrArg busy hp) ▸ .loading N hp hM hws
  | computing hd hM hws =>
    exact .computing (digestInv_coreStep hinv hd hx) ((sameCall_coreStep hinv hx).message.trans hM) hws
  | failed hp hws => exact hstays (congrArg busy hp) ▸ .failed hp hws

/-- The `CLR` of a call begins it with nothing pushed (R216). -/
theorem after_clr (hinv : CoreInv s) (hb : busy s.phase = false) (hx : hostStep 0x0100#16 s = .next t) :
    CallStage M (pushsWords M ++ 0x0300#16 :: rdigestWords) t := by
  obtain ⟨u, hclr, hu⟩ := pushed_clr hinv hb rfl rfl
  cases hclr.symm.trans hx
  have hloaded := hu.fits (Nat.zero_le _)
  exact .loading M hloaded.idle (by rw [hloaded.message, List.nil_append]) rfl

/-- A `PUSH` of a call appends its byte or, with the buffer full, fails the call (R217). -/
theorem after_push {b : Byte} {N : List Byte} (hinv : CoreInv s) (hp : s.phase = .idle) (hM : message s ++ b :: N = M)
    (hx : hostStep (commandWord 0x02#8 b) s = .next t) :
    CallStage M (pushsWords N ++ 0x0300#16 :: rdigestWords) t := by
  rw [hostStep, decodeCommand_push] at hx
  rcases execPush_next hx with ⟨hne, -⟩ | ⟨-, -, rfl⟩ | ⟨-, hlt, rfl⟩
  · exact absurd hp hne
  · exact .failed rfl (clr_notMem_rest N)
  · obtain ⟨-, -, hcap⟩ := hinv.capLegal
    refine .loading N hp ?_ rfl
    exact (congrArg (· ++ N) (message_push (by omega) b)).trans ((List.append_cons ..).symm.trans hM)

/-- The `START` of a call begins the computation or, without room for the padding, fails the call (R218). -/
theorem after_start (hp : s.phase = .idle) (hM : message s = M) (hx : hostStep 0x0300#16 s = .next t) :
    CallStage M rdigestWords t := by
  rcases execStart_next (imm := 0#8) hx with ⟨hne, -⟩ | ⟨-, hne, -⟩ | ⟨-, -, -, rfl⟩ | ⟨-, -, -, rfl⟩
  · exact absurd rfl hne
  · exact absurd hp hne
  · exact .failed rfl (by decide)
  · exact .computing (digestInv_loading (.inr (.inr rfl))) hM (List.Subset.refl _)

/-- The next command of a call takes it to its next stage. -/
theorem after_command (h : CallStage M (cw :: ws) s) (hinv : CoreInv s) (hx : hostStep cw s = .next t) :
    CallStage M ws t := by
  cases h with
  | fresh hb hws =>
    obtain ⟨rfl, rfl⟩ := List.cons.inj (hws.trans (by rw [callWords, List.append_assoc]; rfl))
    exact after_clr hinv hb hx
  | loading N hp hM hws =>
    cases N with
    | nil =>
      obtain ⟨rfl, rfl⟩ := List.cons.inj hws
      exact after_start hp (by rwa [List.append_nil] at hM) hx
    | cons b N =>
      obtain ⟨rfl, rfl⟩ := List.cons.inj hws
      exact after_push hinv hp hM hx
  | computing hd hM hws =>
    obtain ⟨hcw, hws⟩ := List.cons_subset.mp hws
    obtain ⟨rc, data, rfl⟩ := hostStep_rdigest_next hcw hx
    exact .computing hd hM hws
  | failed hp hws =>
    obtain ⟨hcw, hws⟩ := List.ne_and_not_mem_of_not_mem_cons hws
    exact .failed (hostStep_keeps_error hp hcw.symm hx) hws

/-- A call with no command to come that is in `DONE` is past its `START`, and `H` holds the digest. -/
theorem digest_of_done (h : CallStage M [] s) (hp : s.phase = .done) : s.h = sha256Words M := by
  cases h with
  | fresh _ hws => cases hws
  | loading N hp' => simp [hp] at hp'
  | computing hd hM =>
    obtain ⟨-, hh⟩ := (digestInv_done_iff hp).mp hd
    rw [hh, hM]
  | failed hp' => simp [hp] at hp'

end CallStage

/-! ## A run that is a call -/

/-- The run from `s` on is what is left of a call `digest(M)`. -/
structure Calling (M : List Byte) (s : State) : Prop where
  inv : CoreInv s
  noReset : Move.reset ∉ s.moves
  stage : CallStage M (callCommands s.moves) s

/-- Every step goes on with the call, whichever agent moves. -/
theorem Calling.after_step {M : List Byte} {s t : State} (h : Calling M s) (hx : step s = .next t) : Calling M t := by
  have hinv := stepKeepsCoreInv s t h.inv hx
  have hreset := h.noReset
  have hstage := h.stage
  rcases step_next hx with ⟨hm, hx⟩ | ⟨cw, rest, hm, hx⟩ | ⟨rest, hm, hx⟩ | ⟨rest, hm, -⟩
  · have hmoves := (sameCall_coreStep h.inv hx).moves
    exact ⟨hinv, hmoves ▸ hreset, hmoves ▸ hstage.after_coreStep h.inv hx⟩
  · have hmoves : t.moves = rest := hostStep_moves hx
    rw [hm] at hreset hstage
    refine ⟨hinv, hmoves ▸ mt (List.mem_cons_of_mem _) hreset, hmoves ▸ ?_⟩
    by_cases hcw : cw = 0x0700#16
    · subst hcw
      obtain ⟨rc, data, rfl⟩ := hostStep_poll_next hx
      exact (hstage.after_setMoves rest).after_respond rc data
    · rw [callCommands_command hcw] at hstage
      exact (hstage.after_setMoves rest).after_command (coreInv_setMoves rest h.inv) hx
  · have hinv' := coreInv_setMoves rest h.inv
    have hmoves : t.moves = rest := (sameCall_coreStep hinv' hx).moves
    rw [hm] at hreset hstage
    exact ⟨hinv, hmoves ▸ mt (List.mem_cons_of_mem _) hreset,
      hmoves ▸ (hstage.after_setMoves rest).after_coreStep hinv' hx⟩
  · exact absurd (hm ▸ List.mem_cons_self) hreset

theorem runSteps_succ_next {s u : State} {n : Nat} (h : runSteps (n + 1) s = .next u) :
    ∃ t, step s = .next t ∧ runSteps n t = .next u := by
  rw [runSteps] at h
  split at h
  · rename_i t hx
    exact ⟨t, hx, h⟩
  · cases h
  · cases h

theorem Calling.after_runSteps {M : List Byte} {s u : State} {n : Nat} (h : Calling M s) (hx : runSteps n s = .next u) :
    Calling M u := by
  induction n generalizing s with
  | zero => exact Host.Outcome.next.inj hx ▸ h
  | succ n ih =>
    obtain ⟨t, hstep, hrun⟩ := runSteps_succ_next hx
    exact ih (h.after_step hstep) hrun

/-- The commands of a call begin it, with its `CLR` or, in `IDLE` with no byte pushed, without (R276). -/
theorem calling_of_isCall {M : List Byte} {s : State} (h : CoreInv s) (hb : busy s.phase = false)
    (hreset : Move.reset ∉ s.moves) (hcall : IsCall M s) : Calling M s := by
  refine ⟨h, hreset, ?_⟩
  rcases hcall with hws | ⟨hp, hlen, hws⟩
  · exact .fresh hb hws
  · refine .loading M hp (by simp [message, hlen]) (hws.trans ?_)
    rw [callWords, List.cons_append, List.tail_cons, List.append_assoc]
    rfl

/-- A run that ended well left the digest of the message in `H` (R288). That no `RDW` was refused is not needed: a call
past its `START` ends in `DONE` with the digest even if the host read too early. -/
theorem EndedWell.digest {M : List Byte} {s u : State} (h : CoreInv s) (hb : busy s.phase = false)
    (hu : EndedWell M s u) : u.h = sha256Words M := by
  obtain ⟨n, hrun⟩ := hu.reached
  obtain ⟨hmoves, -⟩ := hu.ended
  have hstage := ((calling_of_isCall h hb hu.noReset hu.call).after_runSteps hrun).stage
  rw [hmoves] at hstage
  exact hstage.digest_of_done hu.done

/-! ## Turns of the core, listed or by default -/

/-- A core step neither reads nor changes the list of moves. -/
theorem coreStep_setMoves {s t : State} (l : List Move) (hx : coreStep s = .next t) :
    coreStep (setMoves l s) = .next (setMoves l t) := by
  cases hp : s.phase <;> rw [coreStep_eq, hp] at hx <;> rw [coreStep_eq, setMoves_phase, hp]
  case idle | done | error | ldiv | ldv | rnd | fold => cases hx; rfl
  case pad80 =>
    obtain ⟨hcap, rfl⟩ := execPad80_next hx
    obtain ⟨t, hx⟩ := execPad80_answers (s := setMoves l s) hcap
    obtain ⟨-, rfl⟩ := execPad80_next hx
    exact hx
  case padz =>
    obtain ⟨hcap, rfl⟩ := execPadz_next hx
    obtain ⟨t, hx⟩ := execPadz_answers (s := setMoves l s) hcap
    obtain ⟨-, rfl⟩ := execPadz_next hx
    exact hx
  case padl =>
    obtain ⟨ht, hcap, rfl⟩ := execPadl_next hx
    obtain ⟨t, hx⟩ := execPadl_answers (s := setMoves l s) ht hcap
    obtain ⟨-, -, rfl⟩ := execPadl_next hx
    exact hx
  case ldw =>
    obtain ⟨ht, x, hread, rfl⟩ := execLdw_next hx
    exact execLdw_of_read (s := setMoves l s) ht hread
  case exp =>
    obtain ⟨ht, rfl⟩ := execExp_next hx
    exact execExp_of_range (s := setMoves l s) ht

theorem coreStep_moves {s t : State} (hx : coreStep s = .next t) : t.moves = s.moves := by
  have hself := coreStep_setMoves s.moves hx
  rw [setMoves_self (s := s) rfl, hx] at hself
  rw [Host.Outcome.next.inj hself, setMoves_moves]

/-- Turns of the core that are listed run as those that are not. -/
theorem runSteps_listedTurns {n : Nat} {s u : State} (hm : s.moves = []) (hx : runSteps n s = .next u) (r : List Move) :
    runSteps n (setMoves (List.replicate n .core ++ r) s) = .next (setMoves r u) := by
  induction n generalizing s with
  | zero => exact congrArg _ (Host.Outcome.next.inj hx ▸ rfl)
  | succ n ih =>
    obtain ⟨t, hstep, hrun⟩ := runSteps_succ_next hx
    rw [step_of_moves_nil hm] at hstep
    have hlisted : step (setMoves (List.replicate (n + 1) .core ++ r) s) =
        .next (setMoves (List.replicate n .core ++ r) t) :=
      (step_of_core (rest := List.replicate n .core ++ r) rfl).trans (coreStep_setMoves _ hstep)
    rw [runSteps_succ n hlisted]
    exact ih ((coreStep_moves hstep).trans hm) hrun

/-! ## The computation with its turns listed -/

/-- `START` with more moves behind it, in `IDLE` with room for the padding (R218). -/
theorem step_start_of_more {s : State} {r : List Move} (hm : s.moves = .command 0x0300#16 :: r) (hp : s.phase = .idle)
    (hfit : plenOf s.len.toNat ≤ s.cap) : step s = .next (setMoves r (started s)) :=
  (step_of_decoded (i := .start 0#8) hm rfl).trans (execStart_of_fits (s := setMoves r s) hp hfit)

/-- With the message loaded and room for its padding, `START` and at least the turns of R203 bring the machine to the
digest. -/
theorem Pushed.runSteps_computation {s0 s : State} {M : List Byte} {k : Nat} {r : List Move} (h : Pushed s0 M s)
    (hfit : plenOf M.length ≤ s.cap) (hm : s.moves = .command 0x0300#16 :: (List.replicate k Move.core ++ r))
    (hk : (plenOf M.length - M.length) + 1 + 130 * (plenOf M.length / 64) ≤ k) :
    ∃ u, runSteps (1 + k) s = .next (setMoves r u) ∧ HoldsDigest M u ∧
      u.responses = s0.responses ++ List.replicate (M.length + 2) ⟨.ok, 0#32⟩ := by
  have hcap := h.cap
  obtain ⟨-, hroom, -⟩ := plenOf_bounds M.length
  have hloaded := h.fits (by omega)
  have halone := pushed_setMoves [.command 0x0300#16] h
  obtain ⟨-, hresp, u, hcomp, hu, hkept⟩ := started_holdsDigest (halone.fits (by omega)) halone.inv rfl hfit
  obtain ⟨d, rfl⟩ := Nat.exists_eq_add_of_le hk
  have hstart := step_start_of_more hm hloaded.idle (hloaded.len ▸ hfit)
  have hlisted := runSteps_listedTurns (s := started s) rfl hcomp (List.replicate d .core ++ r)
  have hidle := runSteps_coreTurns (s := setMoves (List.replicate d .core ++ r) u) (congrArg busy hu.done)
    (fun _ => List.eq_of_mem_replicate) rfl
  rw [List.length_replicate] at hidle
  refine ⟨u, ?_, hu, hkept.trans hresp⟩
  rw [runSteps_trans _ (runSteps_one hstart), List.replicate_add, List.append_assoc, runSteps_trans _ hlisted, hidle]
  rfl

/-! ## The reads of a call -/

theorem hostStep_rdw_done {s : State} (hp : s.phase = .done) (k : Fin 8) :
    hostStep (rdwWord k) s = .next (respondOk s.h[k] s) := by
  have hk : (BitVec.ofNat 8 k : Byte).toNat = k := by rw [BitVec.toNat_ofNat]; omega
  rw [hostStep, decodeCommand_rdwWord]
  refine (execRdw_done (hk.trans_lt k.isLt) hp).trans ?_
  simp only [hk]
  rfl

/-- The state with the words `ks` of `H` answered. -/
def answered (ks : List (Fin 8)) (s : State) : State :=
  { s with responses := s.responses ++ ks.map fun k => ⟨.ok, s.h[k]⟩ }

/-- In `DONE` each `RDW` is answered with its word of `H`, whatever turns the core is given (R219). -/
theorem runSteps_reads {s : State} {ks : List (Fin 8)} {l r : List Move} (hp : s.phase = .done)
    (hm : s.moves = l ++ r) (hl : l.filter (· ≠ Move.core) = (ks.map rdwWord).map Move.command) :
    runSteps l.length s = .next (answered ks (setMoves r s)) := by
  have hb : busy s.phase = false := congrArg busy hp
  induction ks generalizing s l with
  | nil =>
    have hcore : ∀ m ∈ l, m = .core := by simpa using hl
    rw [runSteps_coreTurns hb hcore hm, answered, List.map_nil, List.append_nil]
  | cons k ks ih =>
    obtain ⟨n, l', hlen, hl', hserved⟩ := runSteps_command hb hm hl
    have hread := hostStep_rdw_done (s := setMoves (l' ++ r) s) hp k
    have hrest := ih (s := respondOk s.h[k] (setMoves (l' ++ r) s)) hp rfl hl' hb
    rw [hlen, runSteps_trans _ (hserved _ hread)]
    exact hrest.trans (by simp [answered, respondOk, respond, setMoves])

/-- All eight words of a hash state read in order are its list of words. -/
theorem answered_finRange_responses (s : State) :
    (answered (List.finRange 8) s).responses = s.responses ++ s.h.toList.map fun x => ⟨.ok, x⟩ := by
  refine congrArg (s.responses ++ ·) (List.ext_getElem (by simp) fun i _ _ => ?_)
  simp only [List.getElem_map, List.getElem_finRange, Vector.getElem_toList]
  rfl

/-! ## A call that fits ends well (R288) -/

/-- A run of the moves of a call, with turns of the core anywhere among them, has ended well once no move is left, the
phase is `DONE` and every answer was `OK`. -/
theorem endedWell_of_call {M : List Byte} {s u : State} {rs : List Response}
    (hcall : s.moves.filter (· ≠ Move.core) = (callWords M ++ rdigestWords).map Move.command)
    (hrun : ∃ n, runSteps n s = .next u) (hmoves : u.moves = []) (hdone : u.phase = .done)
    (hresp : u.responses = s.responses ++ rs) (hok : ∀ r ∈ rs, r.rc = .ok) : EndedWell M s u where
  noReset h := by
    have hmem := hcall ▸ List.mem_filter.mpr ⟨h, rfl⟩
    obtain ⟨_, -, hcw⟩ := List.mem_map.mp hmem
    cases hcw
  call := by
    left
    rw [← commandsOf_filter, hcall, commandsOf_map]
    exact List.filter_eq_self.mpr fun cw hcw => decide_eq_true (ne_poll_of_mem_call hcw)
  reached := hrun
  ended := ⟨hmoves, congrArg busy hdone⟩
  done := hdone
  readsOk a ha _ := by
    rw [answers, hresp, List.drop_left] at ha
    exact hok _ (List.of_mem_zip ha).2

/-- The moves of a call that gives the core its turns after `START` are those of `callWords` and `rdigestWords`. -/
theorem filter_callMoves {M : List Byte} {ms rs : List Move} (k : Nat)
    (hms : ms.filter (· ≠ Move.core) = (0x0100#16 :: pushsWords M).map Move.command)
    (hrs : rs.filter (· ≠ Move.core) = rdigestWords.map Move.command) :
    (ms ++ .command 0x0300#16 :: (List.replicate k Move.core ++ rs)).filter (· ≠ Move.core) =
      (callWords M ++ rdigestWords).map Move.command := by
  have hcores : (List.replicate k Move.core).filter (· ≠ Move.core) = [] := List.filter_replicate_of_neg (by decide)
  rw [List.filter_append, List.filter_cons_of_pos (by decide), List.filter_append, hms, hcores, hrs, callWords]
  simp

/-- Settles O60: the loading, the computation and the reads are each run to their end; for a run that ended well, the
stages of a call. -/
theorem callEndsWell : Obligations.CallEndsWell := by
  intro s M h hb
  refine ⟨fun ms rs k hfit hm hk hms hrs => ?_, fun u hu => hu.digest h hb⟩
  obtain ⟨v, hload, hmoves, hv⟩ := runSteps_loading h hb hm hms
  obtain ⟨-, -, -, -, -, -, hcapacity⟩ := paddedLengthAndCapacity M.length
  have hplen : plenOf M.length ≤ v.cap := hv.cap ▸ (hcapacity s.cap h.capLegal).mpr hfit
  obtain ⟨w, hcomp, hw, hresp⟩ := hv.runSteps_computation hplen hmoves hk
  have hreads := runSteps_reads (s := setMoves rs w) (r := []) hw.done (List.append_nil rs).symm
    (rdigestWords_eq ▸ hrs)
  have hrun : runSteps s.moves.length s = .next (answered (List.finRange 8) (setMoves [] w)) := by
    have hlen : s.moves.length = ms.length + (1 + k + rs.length) := by
      rw [hm, List.length_append, List.length_cons, List.length_append, List.length_replicate]
      omega
    rw [hlen, runSteps_trans _ hload, runSteps_trans _ hcomp, hreads]
    rfl
  have hanswers : (answered (List.finRange 8) (setMoves [] w)).responses =
      s.responses ++ List.replicate (M.length + 2) ⟨.ok, 0#32⟩ ++ (sha256Words M).toList.map fun x => ⟨.ok, x⟩ := by
    rw [answered_finRange_responses, setMoves_responses, setMoves_h, hresp, hw.digest]
  refine ⟨_, hrun, ?_, hanswers⟩
  refine endedWell_of_call (hm ▸ filter_callMoves k hms hrs) ⟨_, hrun⟩ rfl hw.done
    (hanswers.trans (List.append_assoc ..)) fun r hr => ?_
  rcases List.mem_append.mp hr with hr | hr
  · rw [List.eq_of_mem_replicate hr]
  · obtain ⟨x, -, rfl⟩ := List.mem_map.mp hr
    rfl

end Sys2Proof.Machine
end

section
/-! PROOFS. Where the model stops: the memory operations outside `[0, CAP)` and on an unwritten byte, and the
micro-operations outside their ranges of `T` (10_state.md R43, 20_memory.md R69; entries 3, 9 and 13). -/

namespace Sys2Proof.Machine

/-! ## The stops of the shared operations -/

theorem memWrite1_of_ge {s : State} {a : Nat} (h : s.cap ≤ a) (b : Byte) :
    memWrite1 s a b = .error (.mbOutOfRange a) := if_neg (by omega)

/-- A word inside `[0, CAP)` whose first byte is unwritten has no value (R43). -/
theorem memRead4_of_unwritten {s : State} {a : Nat} (hcap : a + 4 ≤ s.cap) (hb : mbGet s.mb a = none) :
    memRead4 s a = .error (.mbUnwritten a) := by
  rw [memRead4, if_pos hcap, hb]

/-- Outside its range of `T` a micro-operation stops, whatever it would have done. -/
theorem withinSteps_of_outside {s : State} {lo hi : Nat} (k : Result) (h : s.t.toNat < lo ∨ hi < s.t.toNat) :
    withinSteps s lo hi k = .fault (.stepCounterOutOfRange s.t) := if_neg (by omega)

/-! ## The stops of the micro-operations -/

theorem execPad80_of_full {s : State} (h : s.cap ≤ s.len.toNat) :
    execPad80 s = .fault (.mbOutOfRange s.len.toNat) := by
  rw [execPad80, memWrite1_of_ge h, andThen_error]

theorem execPadz_of_full {s : State} (h : s.cap ≤ s.pp.toNat) :
    execPadz s = .fault (.mbOutOfRange s.pp.toNat) := by
  rw [execPadz, memWrite1_of_ge h, andThen_error]

/-- `LDW` with `T` in its range stops where its read does. -/
theorem execLdw_of_fault {s : State} {f : Fault} (ht : s.t.toNat ≤ 15)
    (hread : memRead4 s (blockWordAddr s) = .error f) : execLdw s = .fault f := by
  rw [execLdw, withinSteps_of _ (Nat.zero_le _) ht, hread, andThen_error]

/-- Settles O59: the padding stores by `CAP`, the range of `T` by the check before everything else, and the load in
its range by its read. -/
theorem stopsOutsideTheRules : Obligations.StopsOutsideTheRules := fun _ =>
  ⟨execPad80_of_full,
   execPadz_of_full,
   fun ht => withinSteps_of_outside _ (.inr ht),
   fun ht => withinSteps_of_outside _ (.inr ht),
   fun ht => withinSteps_of_outside _ (.inl ht),
   fun ht hcap hb => execLdw_of_fault ht (memRead4_of_unwritten hcap hb)⟩

end Sys2Proof.Machine
end
